-- ==== Sys2Proof/Word.lean ====
section
/-! DEFINITION. The machine's words: a byte is the only thing a buffer holds (spec/00_scope.md R7 BYTE_W, R9),
32 bits is the width of the planar shift registers (R7 WORD_W), a nibble is one pixel's colour index (R7 BPP).
All of them are unsigned (R9); every `>>` of the spec is a logical shift (R10). -/

namespace Sys2Proof

/-- One element of a buffer (R7 BYTE_W = 8). -/
abbrev Byte := BitVec 8

/-- The planar datapath's shift registers (R7 WORD_W = 32). -/
abbrev Word := BitVec 32

/-- One colour index (R7 BPP = 4). -/
abbrev Nibble := BitVec 4

end Sys2Proof
end

