-- ==== Sys2Proof/Config.lean ====
section
/-! DEFINITION. What is fixed for the machine: the two symbolic components of a command and the numeric parameters of
spec/00_scope.md R7. No result of an instruction is undefined in this spec, so there is no free value here.
The open parameters of R8 are not constants: N is the register LEN, ADDR_W is unbounded (log 1), and WORKERS is an
argument of Machine/Workers.lean (log 10). The tables and DEST_XOR stand in Machine/Tables.lean. -/

namespace Sys2Proof

/-- Tile Category: "one of `Fix`, `Sprite`, `CDSprite`" (10_state.md R23). -/
inductive Category where
  | fix
  | sprite
  | cdSprite
deriving DecidableEq, Repr

/-- Direction: Encode is linear to hardware-native, Decode hardware-native to linear (10_state.md R24). -/
inductive Direction where
  | encode
  | decode
deriving DecidableEq, Repr

/-- UNIT_FIX (R7): bytes per Fix unit, one 8×8 tile. -/
def Config.unitFix : Nat := 32

/-- UNIT_SPR (R7): bytes per Sprite and CDSprite unit, one 8-pixel row group. -/
def Config.unitSpr : Nat := 4

/-- BLOCK_SPR_ENC (R7): the length granule of planar encode, the smallest span closed under `xor DEST_XOR`. -/
def Config.blockSprEnc : Nat := 128

end Sys2Proof
end

