-- ==== Sys2Proof/Syntax.lean ====
section
/-! DEFINITION. The instruction set: six transcode operations (spec/00_scope.md R3), one constructor per row of
spec/opcode_table.json, in the table's order. No instruction has an operand (30_encoding.md R82): N is the register LEN
and the buffers are implicit (R80). SPR and CDS are separate constructors (41_planar_sprite_codec.md R154). -/

namespace Sys2Proof

/-- The six operations (30_encoding.md R83). -/
inductive Instr where
  /-- FIX.ENC, CMD 0x00 (40_fix_tile_codec.md R111). -/
  | fixEnc
  /-- SPR.ENC, CMD 0x01 (41_planar_sprite_codec.md R153). -/
  | sprEnc
  /-- CDS.ENC, CMD 0x02 (41_planar_sprite_codec.md R151). -/
  | cdsEnc
  /-- FIX.DEC, CMD 0x04 (40_fix_tile_codec.md R110). -/
  | fixDec
  /-- SPR.DEC, CMD 0x05 (41_planar_sprite_codec.md R152). -/
  | sprDec
  /-- CDS.DEC, CMD 0x06 (41_planar_sprite_codec.md R150). -/
  | cdsDec
deriving DecidableEq, Repr

/-- The category column of the dispatch table (42_dispatcher.md R171). -/
def Instr.category : Instr → Category
  | .fixEnc => .fix
  | .sprEnc => .sprite
  | .cdsEnc => .cdSprite
  | .fixDec => .fix
  | .sprDec => .sprite
  | .cdsDec => .cdSprite

/-- The direction column of the dispatch table (42_dispatcher.md R171). -/
def Instr.direction : Instr → Direction
  | .fixEnc => .encode
  | .sprEnc => .encode
  | .cdsEnc => .encode
  | .fixDec => .decode
  | .sprDec => .decode
  | .cdsDec => .decode

end Sys2Proof
end

