-- ==== Sys2Proof/Machine/State.lean ====
section
/-! DEFINITION. The state of the TFT as plain data (spec/10_state.md): the two buffers, LEN, CMD, STATUS, the values latched
at Start and the working registers; the record of failed operations (60_exceptions.md R210); and the model's own plain
data about the host (log 4, log 5, log 6). Also the reasons a step can stop, and the state after reset (R38). -/

namespace Sys2Proof.Machine

/-- A buffer: (offset, byte) pairs, offsets strictly rising. An unlisted offset holds no value (10_state.md R20, R21, R38). -/
abbrev Memory := List Host.Cell

/-- The phase (10_state.md R27). -/
inductive Phase where
  | idle
  | busy
  | done
  | failed
deriving DecidableEq, Repr

/-- The error category (60_exceptions.md R206). `io` and `allocation` belong to collaborators; the core never produces them. -/
inductive Err where
  | none
  | usage
  | io
  | allocation
  | length
deriving DecidableEq, Repr

/-- Why the machine stops with a fault. Every one is about a state that no run reaches (42_dispatcher.md R176, log 8). -/
inductive Fault where
  /-- Raised by MemRead and MemWrite for an offset outside [0, N) (00_scope.md R12). Safe: it stops where the spec has no access. -/
  | offsetOutOfRange
  /-- Raised by MemRead for a cell of IN that holds no value (10_state.md R20). Safe: the spec has no such read. -/
  | inputCellHoldsNoValue
  /-- Raised by the engine in phase Busy where OUT does not exist (42_dispatcher.md R170 step 4 creates it). Safe. -/
  | busyWithoutOutput
  /-- Raised by a step in phase Busy whose latched CMD is not an operation (42_dispatcher.md R170 step 2). Safe. -/
  | busyWithoutOperation
deriving DecidableEq, Repr

/-- Why the model has no step. -/
inductive Refusal where
  /-- An arm of `exec` without a meaning; no arm raises it in this model. Safe. -/
  | notModelled (mnemonic : String)
  /-- Raised by Start, after its checks pass, when some cell of IN[0..N-1] holds no value: "the model has no step for it"
  (70_reset_and_hazards.md R232). Safe. -/
  | inputNotSupplied
  /-- Raised by a host read of OUT where there is no such value: outside phase Done, or past the buffer's end
  (70_reset_and_hazards.md R236, R239). Safe. -/
  | noOutputToRead
  /-- Raised by a host read of LEN outside phase Failed, the only phase the table offers it in
  (70_reset_and_hazards.md R236, log 9). Safe. -/
  | lenNotReadable
deriving DecidableEq, Repr

/-- The working registers (10_state.md R29). None is readable or writable by the host. -/
structure Regs where
  /-- `I`, the index counter (10_state.md R30); a natural, ADDR_W being open (log 1) -/
  i : Nat
  /-- `WORD` (10_state.md R31) -/
  word : Word
  /-- `HNIB` (10_state.md R32) -/
  hnib : Byte
  /-- `INDEXES` (10_state.md R33) -/
  indexes : Word
  /-- `MASK` (10_state.md R34) -/
  mask : Word
  /-- `BITPLANE` (10_state.md R34) -/
  bitplane : Byte
  /-- `P`, the pixel counter (10_state.md R29) -/
  p : BitVec 3
  /-- `BP`, the lane counter (10_state.md R29) -/
  bp : BitVec 2
deriving DecidableEq, Repr

/-- The working registers at reset: the spec says "unspecified", the model says zero (log 2, DESIGN CHOICE, unsafe). -/
def Regs.reset : Regs :=
  { i := 0, word := 0, hnib := 0, indexes := 0, mask := 0, bitplane := 0, p := 0, bp := 0 }

/-- What Start latches (42_dispatcher.md R170, 20_memory.md R65). -/
structure Latch where
  /-- CMD as it was at Start; no value if CMD had never been written (70_reset_and_hazards.md R232) -/
  cmd : Option Byte
  /-- N, the content of LEN at Start -/
  len : Nat
deriving DecidableEq, Repr

/-- What one iteration of an operation's loop changes: the working registers and the output buffer. -/
structure Engine where
  regs : Regs
  out : Memory
deriving DecidableEq, Repr

/-- The host's moves (70_reset_and_hazards.md R236; 30_encoding.md R91), and the reset input, which the model puts among them
(log 18, DESIGN CHOICE). -/
inductive HostMove where
  /-- write CMD -/
  | writeCmd (w : Byte)
  /-- write LEN -/
  | writeLen (n : Nat)
  /-- supply consecutive bytes of IN from offset `a` on -/
  | writeIn (a : Nat) (bs : List Byte)
  /-- read the whole of OUT and supply it as IN: "the host performs the copy between operations" (30_encoding.md R91) -/
  | copyOutToIn
  /-- Start (42_dispatcher.md R170) -/
  | start
  /-- read STATUS -/
  | readStatus
  /-- read LEN -/
  | readLen
  /-- read one byte of OUT -/
  | readOut (a : Nat)
  /-- reset, from any phase (70_reset_and_hazards.md R230, R231). The spec names no agent that issues it, and gives the host in Busy
  the read of STATUS only (00_scope.md R16); that it is one of the host's moves, in Busy too, is the model's choice
  (log 18, DESIGN CHOICE) -/
  | reset
  /-- the host decides whether it looks in while Busy; no access to the machine (log 5) -/
  | watch (on : Bool)
  /-- the host lets one step pass; no access to the machine (log 4) -/
  | pass
  /-- the host waits until the phase is not Busy; no access to the machine (log 4) -/
  | wait
deriving DecidableEq, Repr

/-- What a read gives the host (70_reset_and_hazards.md R236, the column "what the host gets"). -/
inductive Seen where
  | status (w : Byte)
  | len (n : Nat)
  | out (a : Nat) (b : Byte)
deriving DecidableEq, Repr

/-- The state of the machine. -/
structure State where
  /-- IN (10_state.md R20) -/
  inp : Memory
  /-- OUT (10_state.md R21); `none` where no output buffer exists -/
  out : Option Memory
  /-- LEN (10_state.md R22); a natural, ADDR_W being open (log 1) -/
  len : Nat
  /-- CMD (10_state.md R25), with CAT and DIR its fields (R23, R24); `none` until the host first writes it (R232) -/
  cmd : Option Byte
  /-- STATUS.PHASE (10_state.md R26, R27) -/
  phase : Phase
  /-- STATUS.ERR (10_state.md R26) -/
  err : Err
  /-- CMD and LEN as latched at Start (42_dispatcher.md R170) -/
  latch : Latch
  /-- the working registers of the one worker (10_state.md R29) -/
  regs : Regs
  /-- the run's record of failed operations, newest first (60_exceptions.md R210, log 7) -/
  failures : List Err
  /-- the model's own: the host's moves still to come, next first (log 4) -/
  pending : List HostMove
  /-- the model's own: whether the host looks in while Busy (log 5) -/
  watch : Bool
  /-- the model's own: what the host's reads have given it, newest first (log 6) -/
  seen : List Seen
deriving DecidableEq, Repr

/-- The machine right after reset (10_state.md R38): Idle, None, LEN 0, CMD and IN without value, no OUT. The working registers
and the latch are the model's values (log 2, log 3); the host has no move pending (log 4). -/
def State.reset : State :=
  { inp := [], out := none, len := 0, cmd := none, phase := .idle, err := .none
    latch := { cmd := none, len := 0 }, regs := Regs.reset
    failures := [], pending := [], watch := false, seen := [] }

end Sys2Proof.Machine
end

