-- ==== Sys2Proof/Machine/Tables.lean ====
section
/-! DEFINITION. The two constant tables of spec/10_state.md R28 and the two placement constants of planar encode
(00_scope.md R7, 41_planar_sprite_codec.md R140, 92_eei_decisions.md D26). They are part of the hardware and never
written: "immutable arrays, not branching logic" (R7). -/

namespace Sys2Proof.Machine

/-- `T[k]` for a table of four elements (00_scope.md R12); every rule uses k in 0..3. -/
def tableAt {w : Nat} (t : Vector (BitVec w) 4) (k : Nat) : BitVec w := t[k % 4]'(Nat.mod_lt k (by decide))

/-- COLUMN_ORDER, index 0 first (10_state.md R28). -/
def columnOrder : Vector (BitVec 2) 4 := #v[2, 3, 0, 1]

/-- BITPLANE_MASK, index 0 first (10_state.md R28). -/
def bitplaneMask : Vector Nibble 4 := #v[8, 4, 2, 1]

/-- DEST_XOR (00_scope.md R7), the "additional fixed XOR" on the group base in planar encode. -/
def destXor : Nat := 0x40

/-- ENC_LANE_ORDER (92_eei_decisions.md D26): the output byte of a group that lane `bp` goes to. -/
def encLaneOrder : Vector (BitVec 2) 4 := #v[0, 1, 2, 3]

end Sys2Proof.Machine
end

