-- ==== Sys2Proof/Machine/Datapath.lean ====
section
/-! DEFINITION. The combinational functions and the register steps of the datapath: the nibble-reorder-unit
(spec/40_fix_tile_codec.md R100), the bitplane-demultiplexer (41_planar_sprite_codec.md R130 to R132) and the
bitplane-multiplexer (R136, R138). All values are unsigned and all shifts logical (00_scope.md R9, R10). -/

namespace Sys2Proof.Machine

/-- `nibble_swap`: exchange the high and low 4-bit halves of a byte (40_fix_tile_codec.md R100). -/
def nibbleSwap (b : Byte) : Byte := (b >>> 4) ||| ((b &&& 0x0F#8) <<< 4)

/-- `rot2n`: exchange the upper and lower bit pair of each nibble (41_planar_sprite_codec.md R144). -/
def rot2n (b : Byte) : Byte := ((b >>> 2) &&& 0x33#8) ||| ((b &&& 0x33#8) <<< 2)

/-- Word assembly: the value loaded into WORD for a group whose bytes are `h0 h1 h2 h3` (41_planar_sprite_codec.md R130). -/
def assembleWord (h0 h1 h2 h3 : Byte) : Word :=
  (h2.setWidth 32 <<< 24) ||| (h3.setWidth 32 <<< 16) ||| (h0.setWidth 32 <<< 8) ||| h1.setWidth 32

/-- Colour extraction, from bits 24, 16, 8 and 0 of WORD (41_planar_sprite_codec.md R131). -/
def colorIndex (w : Word) : Nibble :=
  (((w &&& 0x01000000#32) >>> 21) ||| ((w &&& 0x00010000#32) >>> 14) |||
    ((w &&& 0x00000100#32) >>> 7) ||| (w &&& 0x00000001#32)).setWidth 4

/-- The accumulation step of planar encode, first byte most significant (41_planar_sprite_codec.md R136, 92_eei_decisions.md D7). -/
def accumulate (indexes : Word) (b : Byte) : Word := (indexes <<< 8) ||| b.setWidth 32

/-- Even pixel of a pair: HNIB takes the colour index in its high nibble (41_planar_sprite_codec.md R132). -/
def holdHighNibble (c : Nibble) : Byte := c.setWidth 8 <<< 4

/-- Odd pixel of a pair: the packed output byte (41_planar_sprite_codec.md R132). -/
def packPair (hnib : Byte) (c : Nibble) : Byte := hnib ||| c.setWidth 8

/-- One pixel of a lane: BITPLANE takes the tested bit, MASK moves to the next nibble (41_planar_sprite_codec.md R138).
P counts the pixels and is truncated to its three bits (00_scope.md R12, log 11). -/
def laneStep (r : Regs) : Regs :=
  { r with
    bitplane := (r.bitplane <<< 1) ||| (if r.indexes &&& r.mask ≠ 0 then 1 else 0)
    mask := r.mask <<< 4
    p := r.p + 1 }

/-- The start of a lane: MASK from the table, BITPLANE and P cleared (41_planar_sprite_codec.md R138). -/
def laneStart (bp : BitVec 2) (r : Regs) : Regs :=
  { r with bp := bp, mask := (tableAt bitplaneMask bp.toNat).setWidth 32, bitplane := 0, p := 0 }

/-- `k` pixels of a lane. -/
def laneSteps : Nat → Regs → Regs
  | 0, r => r
  | k + 1, r => laneSteps k (laneStep r)

/-- One whole lane: eight pixels, p = 0 to 7 (41_planar_sprite_codec.md R138, 00_scope.md R11). -/
def laneLoop (bp : BitVec 2) (r : Regs) : Regs := laneSteps 8 (laneStart bp r)

end Sys2Proof.Machine
end

