-- ==== Sys2Proof/Machine/Operands.lean ====
section
/-! DEFINITION. Every effective-offset form of spec/42_dispatcher.md R187, all relative to the start of a buffer. The
column-permutation-engine (40_fix_tile_codec.md R103, R105, R108) and the placement of planar encode
(41_planar_sprite_codec.md R140). Offsets are naturals (00_scope.md R8). -/

namespace Sys2Proof.Machine

/-- `x & ~31` for k = 5 and `x & ~3` for k = 2: x with its k low bits cleared (00_scope.md R10). -/
def clearLow (k x : Nat) : Nat := (x >>> k) <<< k

/-- COLUMN_ORDER[k] as an offset (10_state.md R28). -/
def column (k : Nat) : Nat := (tableAt columnOrder k).toNat

/-- The input offset FIX.DEC reads for output offset `i` (40_fix_tile_codec.md R103). -/
def decSrc (i : Nat) : Nat := clearLow 5 i + (column (i &&& 3) <<< 3) + (((i >>> 2) &&& 7) ^^^ 1)

/-- The input offset FIX.ENC reads at loop index `i` (40_fix_tile_codec.md R105). -/
def encSrc (i : Nat) : Nat := clearLow 5 i + column ((i >>> 3) &&& 3) + ((i &&& 7) <<< 2)

/-- The output offset FIX.ENC writes at loop index `i` (40_fix_tile_codec.md R105). -/
def encDst (i : Nat) : Nat := i ^^^ 1

/-- The input offset whose byte FIX.ENC puts at output offset `h` (40_fix_tile_codec.md R108, closed form). -/
def encOf (h : Nat) : Nat := clearLow 5 h + (((h >>> 3) &&& 3) ^^^ 2) + (((h &&& 7) ^^^ 1) <<< 2)

/-- The output offset of lane `bp` of the planar-encode group with base `g` (41_planar_sprite_codec.md R140). -/
def encPlace (g bp : Nat) : Nat := (g ^^^ destXor) + (tableAt encLaneOrder bp).toNat

end Sys2Proof.Machine
end

