-- ==== Sys2Proof/WellFormed.lean ====
section
/-! DEFINITION. What makes a command word well formed (spec/30_encoding.md R80, R83, R84): its RSV field is zero and its
CAT field is not 3. An instruction has no operand, so the only thing to check of one is that it stands in its own row of
the dispatch table (42_dispatcher.md R171). -/

namespace Sys2Proof

/-- The format CMD8 taken apart into its fields (30_encoding.md R80). -/
structure Command where
  /-- bits 7:3, reserved -/
  rsv : BitVec 5
  /-- bit 2, the direction -/
  dir : BitVec 1
  /-- bits 1:0, the tile category -/
  cat : BitVec 2
deriving DecidableEq, Repr

/-- Why a command word is reserved (30_encoding.md R84: "CAT = 3, or any RSV bit set"). -/
inductive Reserved where
  /-- some bit of RSV is set -/
  | rsvNotZero
  /-- CAT is 3 -/
  | catIsThree
deriving DecidableEq, Repr

/-- RSV "must be 0" (30_encoding.md R80). -/
def Command.rsvIsZero (c : Command) : Bool := c.rsv == 0

/-- CAT is one of the three defined values (30_encoding.md R81). -/
def Command.catIsDefined (c : Command) : Bool := c.cat != 3

/-- A command word that selects one of the six operations (30_encoding.md R83). -/
def Command.wf (c : Command) : Bool := c.rsvIsZero && c.catIsDefined

/-- The dispatch table's row for a pair (42_dispatcher.md R171): six pairs, no seventh row and no default row. -/
def Instr.ofPair : Category → Direction → Instr
  | .fix, .decode => .fixDec
  | .fix, .encode => .fixEnc
  | .sprite, .decode => .sprDec
  | .sprite, .encode => .sprEnc
  | .cdSprite, .decode => .cdsDec
  | .cdSprite, .encode => .cdsEnc

/-- An instruction stands in the row of its own category and direction (42_dispatcher.md R171). -/
def Instr.wf (i : Instr) : Bool := Instr.ofPair i.category i.direction == i

end Sys2Proof
end

