-- ==== Sys2Proof/Decode.lean ====
section
/-! DEFINITION. The command decoder and encoder (spec/30_encoding.md). The decoder is total on all 256 values of CMD: six
decode to an operation and 250 are reserved, by name (R84). The encoder is written from the same field values (R81). -/

namespace Sys2Proof

/-- Bits 7:3, 2 and 1:0 of a command word (30_encoding.md R80). -/
def Command.ofByte (w : Byte) : Command :=
  { rsv := w.extractLsb' 3 5, dir := w.extractLsb' 2 1, cat := w.extractLsb' 0 2 }

/-- The command word with these fields (30_encoding.md R80). -/
def Command.toByte (c : Command) : Byte := c.rsv ++ (c.dir ++ c.cat)

/-- The value of CAT for a category (30_encoding.md R81). -/
def Category.code : Category → BitVec 2
  | .fix => 0
  | .sprite => 1
  | .cdSprite => 2

/-- The value of DIR for a direction (30_encoding.md R81). -/
def Direction.code : Direction → BitVec 1
  | .encode => 0
  | .decode => 1

/-- The category a value of CAT stands for; 3 is reserved (30_encoding.md R81, R83). -/
def categoryOfCode (c : BitVec 2) : Option Category :=
  if c = 0 then some .fix else if c = 1 then some .sprite else if c = 2 then some .cdSprite else none

/-- The direction a value of DIR stands for (30_encoding.md R81). -/
def directionOfCode (d : BitVec 1) : Direction := if d = 0 then .encode else .decode

/-- The decoder: a command word to its operation, or the name of what makes it reserved (30_encoding.md R83, R84). -/
def decode (w : Byte) : Except Reserved Instr :=
  let c := Command.ofByte w
  if c.rsv ≠ 0 then .error .rsvNotZero
  else
    match categoryOfCode c.cat with
    | none => .error .catIsThree
    | some k => .ok (Instr.ofPair k (directionOfCode c.dir))

/-- The fields of an instruction's command word (30_encoding.md R80, R81). -/
def Instr.command (i : Instr) : Command := { rsv := 0, dir := i.direction.code, cat := i.category.code }

/-- The encoder: the command word of an instruction (30_encoding.md R80, R81, R83). -/
def encode (i : Instr) : Byte := i.command.toByte

/-- What the decoder reads from an instruction whose bits are `w`, numbered as spec/opcode_table.json numbers them. The only
format is one byte long (30_encoding.md R80, R85), so nothing but a byte is an instruction. -/
def decodeTableWord (nbits w : Nat) : Option Instr :=
  if nbits = 8 ∧ w < 256 then
    match decode (BitVec.ofNat 8 w) with
    | .ok i => some i
    | .error _ => none
  else none

end Sys2Proof
end

