-- ==== Sys2Proof/Machine/Flags.lean ====
section
/-! DEFINITION. What the host can read as a number. The TFT has no condition codes: no operation sets or reads a flag
(spec/10_state.md R35). Its one status word is STATUS (R26), and CAT and DIR are fields of CMD (R23, R24, R25). -/

namespace Sys2Proof.Machine

/-- PHASE, bits 1:0 of STATUS (10_state.md R26). -/
def Phase.code : Phase → BitVec 2
  | .idle => 0
  | .busy => 1
  | .done => 2
  | .failed => 3

/-- ERR, bits 4:2 of STATUS (10_state.md R26, 60_exceptions.md R206). -/
def Err.code : Err → BitVec 3
  | .none => 0
  | .usage => 1
  | .io => 2
  | .allocation => 3
  | .length => 4

/-- STATUS as the host reads it: bits 7:5 read as zero (10_state.md R26). -/
def State.status (s : State) : Byte := (0 : BitVec 3) ++ (s.err.code ++ s.phase.code)

/-- CAT, bits 1:0 of CMD (10_state.md R23); no value while CMD has none. -/
def State.cat (s : State) : Option (BitVec 2) := s.cmd.map fun w => (Command.ofByte w).cat

/-- DIR, bit 2 of CMD (10_state.md R24); no value while CMD has none. -/
def State.dir (s : State) : Option (BitVec 1) := s.cmd.map fun w => (Command.ofByte w).dir

end Sys2Proof.Machine
end

