-- ==== Sys2Proof/Machine/Ops.lean ====
section
/-! DEFINITION. The named operations over buffers and registers: one cell, the primitives MemRead and MemWrite
(spec/00_scope.md R12), the length check (42_dispatcher.md R175), raising an error (60_exceptions.md R209), Start
(42_dispatcher.md R170), the engine's step and its completion (R177, R182), and the whole operation over them. -/

namespace Sys2Proof.Machine

/-! ### Buffers -/

/-- The byte a cell holds, if it holds one. -/
def Memory.read : Memory → Nat → Option Byte
  | [], _ => none
  | (k, v) :: m, a => if a = k then some v else Memory.read m a

/-- Write one cell, keeping the offsets strictly rising. -/
def Memory.write : Memory → Nat → Byte → Memory
  | [], a, b => [(a, b)]
  | (k, v) :: m, a, b =>
    if a < k then (a, b) :: (k, v) :: m
    else if a = k then (a, b) :: m
    else (k, v) :: Memory.write m a b

/-- Write consecutive cells from offset `a` on. -/
def Memory.writeBytes : Memory → Nat → List Byte → Memory
  | m, _, [] => m
  | m, a, b :: bs => Memory.writeBytes (Memory.write m a b) (a + 1) bs

/-- The canonical form: offsets strictly rising, so that equal buffers are equal lists. An unlisted cell holds no value, which
no listed entry can equal. -/
def Memory.wf : Memory → Bool
  | [] => true
  | (k, _) :: m => (match m with | [] => true | (k', _) :: _ => decide (k < k')) && Memory.wf m

/-- The bytes of a buffer in the order of their offsets. -/
def Memory.bytes (m : Memory) : List Byte := m.map Prod.snd

/-- Every cell of [0, n) holds a value. -/
def Memory.covers (m : Memory) (n : Nat) : Bool := (List.range n).all fun a => (Memory.read m a).isSome

/-- `MemRead(a, 1)`, short form `IN[a]`: requires 0 <= a < N (00_scope.md R12) and a cell that holds a value (10_state.md R20). -/
def memRead (inp : Memory) (n a : Nat) : Except Fault Byte :=
  if a < n then
    match Memory.read inp a with
    | some b => .ok b
    | none => .error .inputCellHoldsNoValue
  else .error .offsetOutOfRange

/-- `MemWrite(a, 1, v)`, short form `OUT[a] <- v`: requires 0 <= a < N (00_scope.md R12). -/
def memWrite (n a : Nat) (b : Byte) (e : Engine) : Except Fault Engine :=
  if a < n then .ok { e with out := Memory.write e.out a b } else .error .offsetOutOfRange

/-! ### Updates of the state, one field group each -/

/-- STATUS <- (phase, err) (10_state.md R26). -/
def State.setStatus (s : State) (p : Phase) (e : Err) : State := { s with phase := p, err := e }

/-- The output buffer. -/
def State.setOut (s : State) (o : Option Memory) : State := { s with out := o }

/-- IN, written by the host. -/
def State.setInp (s : State) (m : Memory) : State := { s with inp := m }

/-- LEN, written by the host. -/
def State.setLen (s : State) (n : Nat) : State := { s with len := n }

/-- CMD, written by the host. -/
def State.setCmd (s : State) (w : Byte) : State := { s with cmd := some w }

/-- The working registers. -/
def State.setRegs (s : State) (r : Regs) : State := { s with regs := r }

/-- Latch CMD and LEN (42_dispatcher.md R170, 20_memory.md R65). -/
def State.latchCommand (s : State) : State := { s with latch := { cmd := s.cmd, len := s.len } }

/-- The run's record that an operation failed (60_exceptions.md R210). -/
def State.recordFailure (s : State) (e : Err) : State := { s with failures := e :: s.failures }

/-- The host's moves still to come. -/
def State.setPending (s : State) (ms : List HostMove) : State := { s with pending := ms }

/-- Whether the host looks in while Busy. -/
def State.setWatch (s : State) (on : Bool) : State := { s with watch := on }

/-- What the host has just read. -/
def State.see (s : State) (x : Seen) : State := { s with seen := x :: s.seen }

/-! ### The length check -/

/-- The length granule of an operation (42_dispatcher.md R171, R175). -/
def granule : Category → Direction → Nat
  | .fix, .decode => Config.unitFix
  | .fix, .encode => Config.unitFix
  | .sprite, .decode => Config.unitSpr
  | .sprite, .encode => Config.blockSprEnc
  | .cdSprite, .decode => Config.unitSpr
  | .cdSprite, .encode => Config.blockSprEnc

/-- `length_ok(cat, dir, N)` (42_dispatcher.md R175): N is a positive multiple of the granule. -/
def lengthOk (c : Category) (d : Direction) (n : Nat) : Bool := decide (0 < n) && n % granule c d == 0

/-! ### Errors: entry, and the ways out -/

/-- `raise` (60_exceptions.md R209, 00_scope.md R12): STATUS <- (Failed, code), nothing saved, no output buffer, and the run's
record (R210). IN, LEN and CMD are unchanged. There is no return operation: Failed is left by a new Start or by reset (R210). -/
def State.raiseError (s : State) (e : Err) : State := ((s.setStatus .failed e).setOut none).recordFailure e

/-- Reset, from any phase (70_reset_and_hazards.md R230, R231): the state of 10_state.md R38. That the host issues it is the model's
choice (log 18). What is the model's own, the host's
moves and the run's record, is not the machine's and stays (log 7). -/
def State.hostReset (s : State) : State :=
  { State.reset with failures := s.failures, pending := s.pending, watch := s.watch, seen := s.seen }

/-! ### Start -/

/-- What Start does before its checks: latch CMD and LEN, then step 1, discard any previous output buffer
(42_dispatcher.md R170). -/
def State.beginStart (s : State) : State := s.latchCommand.setOut none

/-- Steps 4 and 5 of Start: OUT with N cells holding no value, STATUS <- (Busy, None), I <- 0 (42_dispatcher.md R170). -/
def State.beginOperation (s : State) : State :=
  ((s.setOut (some [])).setStatus .busy .none).setRegs { s.regs with i := 0 }

/-- Start with a CMD that is not one of the six values: step 2 (42_dispatcher.md R170, 60_exceptions.md R201). -/
def State.startUsage (s : State) : State := s.beginStart.raiseError .usage

/-- Start of an operation: steps 1, 3, 4 and 5 (42_dispatcher.md R170). After the length check a Start whose IN[0..N-1] is not
fully supplied has no step (70_reset_and_hazards.md R232, log 8). -/
def start (c : Category) (d : Direction) (s : State) : Host.Outcome State Fault Refusal :=
  if lengthOk c d s.len = false then .next (s.beginStart.raiseError .length)
  else if Memory.covers s.inp s.len = false then .refused .inputNotSupplied
  else .next s.beginStart.beginOperation

/-! ### The engine -/

/-- One iteration of an operation's loop, over IN, N and what the iteration changes. -/
abbrev Iteration := Memory → Nat → Engine → Except Fault Engine

/-- Completion: Busy goes to Done when the index counter has reached N (10_state.md R30, 42_dispatcher.md R177). -/
def State.completeIfAllDone (s : State) : State :=
  if s.latch.len ≤ s.regs.i then s.setStatus .done .none else s

/-- I <- i + k: k is 1 after a Fix step and a planar-encode byte step, 4 after a planar-decode group (10_state.md R30). -/
def Engine.advance (k : Nat) (e : Engine) : Engine := { e with regs := { e.regs with i := e.regs.i + k } }

/-- What an iteration leaves in the state. -/
def State.putEngine (s : State) (e : Engine) : State := (s.setRegs e.regs).setOut (some e.out)

/-- One step of the engine in phase Busy: one iteration of the loop at index I, in the reference order (42_dispatcher.md R182),
and completion after the last. -/
def engineStep (f : Iteration) (s : State) : Host.Outcome State Fault Refusal :=
  if s.latch.len ≤ s.regs.i then .next s.completeIfAllDone
  else
    match s.out with
    | none => .fault .busyWithoutOutput
    | some m =>
      match f s.inp s.latch.len { regs := s.regs, out := m } with
      | .ok e => .next (s.putEngine e).completeIfAllDone
      | .error r => .fault r

/-- Engine steps until the phase leaves Busy, at most `k` of them; N are enough, since every iteration raises I
(42_dispatcher.md R185). -/
def engineRun (f : Iteration) : Nat → State → Host.Outcome State Fault Refusal
  | 0, s => .next s
  | k + 1, s =>
    match engineStep f s with
    | .next t => if t.phase = .busy then engineRun f k t else .next t
    | .fault r => .fault r
    | .refused r => .refused r

/-- The engine's turn in phase Busy: one iteration if the host looks in while Busy, else all that is left (log 5). -/
def engineTurn (f : Iteration) (s : State) : Host.Outcome State Fault Refusal :=
  if s.watch then engineStep f s else engineRun f s.latch.len s

/-- An operation: outside phase Busy, Start and then, unless the host looks in, the engine to completion; in phase Busy, the
engine's next turn. -/
def operate (c : Category) (d : Direction) (f : Iteration) (s : State) : Host.Outcome State Fault Refusal :=
  if s.phase = .busy then engineTurn f s
  else
    match start c d s with
    | .next t => if t.phase = .busy ∧ t.watch = false then engineTurn f t else .next t
    | .fault r => .fault r
    | .refused r => .refused r

end Sys2Proof.Machine
end

