-- ==== Sys2Proof/Machine/Planar.lean ====
section
/-! DEFINITION. The planar-sprite algorithm (spec/41_planar_sprite_codec.md): one iteration of the decode loop, a whole
group (R130 to R132), and one iteration of the encode loop, a byte step with the lane loop at the group's last byte
(R136, R138, R140). -/

namespace Sys2Proof.Machine

/-- The end of a pixel step of planar decode: WORD shifts right by one, logically, and P counts on
(41_planar_sprite_codec.md R132; P is truncated to its three bits, 00_scope.md R12, log 11). -/
def nextPixel (e : Engine) : Engine :=
  { e with regs := { e.regs with word := e.regs.word >>> 1, p := e.regs.p + 1 } }

/-- One pixel of planar decode for the group with base `g` (41_planar_sprite_codec.md R132): an even pixel goes to HNIB, an odd
one completes the output byte at `g + p/2`. -/
def pixelStep (n g : Nat) (e : Engine) : Except Fault Engine :=
  let c := colorIndex e.regs.word
  if e.regs.p.toNat % 2 = 0 then
    .ok (nextPixel { e with regs := { e.regs with hnib := holdHighNibble c } })
  else do
    let e' ← memWrite n (g + e.regs.p.toNat / 2) (packPair e.regs.hnib c) e
    .ok (nextPixel e')

/-- `k` pixels of planar decode. -/
def pixelSteps (n g : Nat) : Nat → Engine → Except Fault Engine
  | 0, e => .ok e
  | k + 1, e => do
    let e' ← pixelStep n g e
    pixelSteps n g k e'

/-- One iteration of planar decode: the group with base I (41_planar_sprite_codec.md R130, R132), its bytes read in the order of
42_dispatcher.md R187. -/
def planarDecIter : Iteration := fun inp n e => do
  let h2 ← memRead inp n (e.regs.i + 2)
  let h3 ← memRead inp n (e.regs.i + 3)
  let h0 ← memRead inp n (e.regs.i + 0)
  let h1 ← memRead inp n (e.regs.i + 1)
  let e' ← pixelSteps n e.regs.i 8 { e with regs := { e.regs with word := assembleWord h0 h1 h2 h3, p := 0 } }
  .ok (e'.advance 4)

/-- One lane of planar encode for the input group with base `g`, stored to its place (41_planar_sprite_codec.md R138, R140). -/
def encLane (n g : Nat) (bp : BitVec 2) (e : Engine) : Except Fault Engine :=
  let r := laneLoop bp e.regs
  memWrite n (encPlace g bp.toNat) r.bitplane { e with regs := r }

/-- The lanes of planar encode, in the order given. -/
def encLanes (n g : Nat) : List (BitVec 2) → Engine → Except Fault Engine
  | [], e => .ok e
  | bp :: bps, e => do
    let e' ← encLane n g bp e
    encLanes n g bps e'

/-- One iteration of planar encode: the byte step at I, and the four lanes when `(I & 3) == 3`
(41_planar_sprite_codec.md R136, R138, R151). -/
def planarEncIter : Iteration := fun inp n e => do
  let b ← memRead inp n e.regs.i
  let e1 : Engine := { e with regs := { e.regs with indexes := accumulate e.regs.indexes b } }
  let e2 ← if e.regs.i &&& 3 = 3 then encLanes n (clearLow 2 e.regs.i) [0, 1, 2, 3] e1 else .ok e1
  .ok (e2.advance 1)

end Sys2Proof.Machine
end

