-- ==== Sys2Proof/Machine/CdSprite.lean ====
section
/-! DEFINITION. The cd-sprite-codec (spec/41_planar_sprite_codec.md R150, R151): the CDSprite category runs the
planar-sprite algorithm unchanged. -/

namespace Sys2Proof.Machine

/-- CDS.DEC: CD-sprite decode, hardware-native to linear (41_planar_sprite_codec.md R150). -/
def execCdsDec (s : State) : Host.Outcome State Fault Refusal := operate .cdSprite .decode planarDecIter s

/-- CDS.ENC: CD-sprite encode, linear to hardware-native (41_planar_sprite_codec.md R151). -/
def execCdsEnc (s : State) : Host.Outcome State Fault Refusal := operate .cdSprite .encode planarEncIter s

end Sys2Proof.Machine
end

