-- ==== Sys2Proof/Machine/Fix.lean ====
section
/-! DEFINITION. The fix-tile-codec (spec/40_fix_tile_codec.md): one iteration of each direction's loop, and the meanings of
FIX.DEC (R110) and FIX.ENC (R111). -/

namespace Sys2Proof.Machine

/-- One step of FIX.DEC: OUT[i] <- nibble_swap(IN[dec_src(i)]) (40_fix_tile_codec.md R110). -/
def fixDecIter : Iteration := fun inp n e => do
  let b ← memRead inp n (decSrc e.regs.i)
  let e' ← memWrite n e.regs.i (nibbleSwap b) e
  .ok (e'.advance 1)

/-- One step of FIX.ENC: OUT[i ^ 1] <- nibble_swap(IN[enc_src(i)]) (40_fix_tile_codec.md R111). -/
def fixEncIter : Iteration := fun inp n e => do
  let b ← memRead inp n (encSrc e.regs.i)
  let e' ← memWrite n (encDst e.regs.i) (nibbleSwap b) e
  .ok (e'.advance 1)

/-- FIX.DEC: Fix decode, hardware-native to linear (40_fix_tile_codec.md R110). -/
def execFixDec (s : State) : Host.Outcome State Fault Refusal := operate .fix .decode fixDecIter s

/-- FIX.ENC: Fix encode, linear to hardware-native (40_fix_tile_codec.md R111). -/
def execFixEnc (s : State) : Host.Outcome State Fault Refusal := operate .fix .encode fixEncIter s

end Sys2Proof.Machine
end

