-- ==== Sys2Proof/Machine/Sprite.lean ====
section
/-! DEFINITION. The cartridge-sprite operations (spec/41_planar_sprite_codec.md R152, R153): operations of their own, defined to
do what the CDSprite ones do, and UNVERIFIED as a layout of cartridge data (R154, 70_reset_and_hazards.md R243, log 13). -/

namespace Sys2Proof.Machine

/-- SPR.DEC: cartridge-sprite decode (41_planar_sprite_codec.md R152). -/
def execSprDec (s : State) : Host.Outcome State Fault Refusal := operate .sprite .decode planarDecIter s

/-- SPR.ENC: cartridge-sprite encode (41_planar_sprite_codec.md R153). -/
def execSprEnc (s : State) : Host.Outcome State Fault Refusal := operate .sprite .encode planarEncIter s

end Sys2Proof.Machine
end

