-- ==== Sys2Proof/Machine/Dispatch.lean ====
section
/-! DEFINITION. The dispatch table of spec/42_dispatcher.md R171: six rows, no seventh and no default. -/

namespace Sys2Proof.Machine

def exec (i : Instr) (s : State) : Host.Outcome State Fault Refusal :=
  match i with
  | .fixEnc => Sys2Proof.Machine.execFixEnc s
  | .sprEnc => Sys2Proof.Machine.execSprEnc s
  | .cdsEnc => Sys2Proof.Machine.execCdsEnc s
  | .fixDec => Sys2Proof.Machine.execFixDec s
  | .sprDec => Sys2Proof.Machine.execSprDec s
  | .cdsDec => Sys2Proof.Machine.execCdsDec s

end Sys2Proof.Machine
end

