-- ==== Sys2Proof/Machine/Turn.lean ====
section
/-! DEFINITION. Which agent moves and what it does: the host's moves (spec/70_reset_and_hazards.md R236), fetching and
decoding the command at Start (42_dispatcher.md R170), and the engine's turn in phase Busy. The host's pending moves are
plain data (log 4), and the reset input (R230) is one of them (log 18). -/

namespace Sys2Proof.Machine

/-- The operation a command word, if there is one, selects (30_encoding.md R83, 70_reset_and_hazards.md R232). -/
def fetch : Option Byte → Option Instr
  | none => none
  | some w =>
    match decode w with
    | .ok i => some i
    | .error _ => none

/-- Start (42_dispatcher.md R170): the operation CMD selects, or Usage before any other check (60_exceptions.md R208). -/
def startMove (s : State) : Host.Outcome State Fault Refusal :=
  match fetch s.cmd with
  | some i => exec i s
  | none => .next s.startUsage

/-- The engine's turn in phase Busy: the operation latched at Start goes on (42_dispatcher.md R170, 20_memory.md R65). -/
def busyTurn (s : State) : Host.Outcome State Fault Refusal :=
  match fetch s.latch.cmd with
  | some i => exec i s
  | none => .fault .busyWithoutOperation

/-- The host reads byte `a` of OUT: only in phase Done, and only where there is one (70_reset_and_hazards.md R236, R239). -/
def readOut (a : Nat) (s : State) : Host.Outcome State Fault Refusal :=
  match s.phase, s.out with
  | .done, some m =>
    match Memory.read m a with
    | some b => .next (s.see (.out a b))
    | none => .refused .noOutputToRead
  | _, _ => .refused .noOutputToRead

/-- The host copies OUT to IN: it reads all of OUT, in phase Done, and supplies it from offset 0 on (30_encoding.md R91). -/
def copyOut (s : State) : Host.Outcome State Fault Refusal :=
  match s.phase, s.out with
  | .done, some m => .next (s.setInp (Memory.writeBytes s.inp 0 (Memory.bytes m)))
  | _, _ => .refused .noOutputToRead

/-- The host reads LEN: the table offers it in phase Failed (70_reset_and_hazards.md R236, log 9). -/
def readLen (s : State) : Host.Outcome State Fault Refusal :=
  if s.phase = .failed then .next (s.see (.len s.len)) else .refused .lenNotReadable

/-- A move of the host in phase Idle, Done or Failed (70_reset_and_hazards.md R236). -/
def hostMove (m : HostMove) (s : State) : Host.Outcome State Fault Refusal :=
  match m with
  | .writeCmd w => .next (s.setCmd w)
  | .writeLen n => .next (s.setLen n)
  | .writeIn a bs => .next (s.setInp (Memory.writeBytes s.inp a bs))
  | .copyOutToIn => copyOut s
  | .start => startMove s
  | .readStatus => .next (s.see (.status s.status))
  | .readLen => readLen s
  | .readOut a => readOut a s
  | .reset => .next s.hostReset
  | .watch on => .next (s.setWatch on)
  | .pass => .next s
  | .wait => .next s

/-- A turn in phase Busy: the host may read STATUS, and otherwise waits, its move still pending, while the engine goes on
(70_reset_and_hazards.md R236). A reset is taken at once (R231); that it comes as a move of the host is the model's choice (log 18). -/
def turnInBusy (s : State) : Host.Outcome State Fault Refusal :=
  match s.pending with
  | .readStatus :: ms => .next ((s.setPending ms).see (.status s.status))
  | .reset :: ms => .next (s.setPending ms).hostReset
  | .watch on :: ms => .next ((s.setPending ms).setWatch on)
  | .pass :: ms => busyTurn (s.setPending ms)
  | _ => busyTurn s

/-- A turn outside phase Busy: the host's next move, or nothing where it has none. -/
def turnOutsideBusy (s : State) : Host.Outcome State Fault Refusal :=
  match s.pending with
  | [] => .next s
  | m :: ms => hostMove m (s.setPending ms)

/-- One turn of the machine and its host. -/
def turn (s : State) : Host.Outcome State Fault Refusal :=
  if s.phase = .busy then turnInBusy s else turnOutsideBusy s

/-- The state with no operation running: what a run that begins with Start needs of the phase (42_dispatcher.md R170). -/
def State.outOfBusy (s : State) : State := if s.phase = .busy then (s.setStatus .idle .none).setOut none else s

/-- The state with a command word in CMD and Start the host's next move. -/
def State.placeCommand (s : State) (w : Byte) : State := (s.outOfBusy.setCmd w).setPending (.start :: s.pending)

end Sys2Proof.Machine
end

