-- ==== Sys2Proof/Machine/Step.lean ====
section
/-! DEFINITION. One step of the machine, and the placing of an instruction where the next step runs it (log 14). -/

namespace Sys2Proof.Machine

/-- One step: a turn of the host or of the engine (Machine/Turn.lean). -/
def step (s : State) : Host.Outcome State Fault Refusal := turn s

/-- `s` with the one-byte instruction `w` in CMD and the host's next move Start, so that the next step runs it (30_encoding.md R80,
42_dispatcher.md R170). An instruction is one byte, so `nbits` says nothing more. -/
def State.withFetchWord (s : State) (_nbits w : Nat) : State := s.placeCommand (BitVec.ofNat 8 w)

end Sys2Proof.Machine
end

