-- ==== Sys2Proof/Machine/Transcode.lean ====
section
/-! DEFINITION. The normative function `transcode` (spec/00_scope.md R15, 42_dispatcher.md R183), written from the closed forms
of the spec (40_fix_tile_codec.md R103, R108; 41_planar_sprite_codec.md R133, R139, R140) and not from the shift registers,
so that the step-by-step machine can be held against it. No meaning calls it. -/

namespace Sys2Proof.Machine

/-- `bit(v, k)` of a byte, as a one-bit colour index (00_scope.md R12). -/
def bitOf (v : Byte) (k : Nat) : Nibble := ((v >>> k) &&& 1#8).setWidth 4

/-- The k-th of the four bytes of a group. -/
def pick4 (b0 b1 b2 b3 : Byte) (k : Nat) : Byte :=
  if k = 0 then b0 else if k = 1 then b1 else if k = 2 then b2 else b3

/-- `pix(q)` of a hardware group `h0 h1 h2 h3` (41_planar_sprite_codec.md R133). -/
def decPix (h0 h1 h2 h3 : Byte) (q : Nat) : Nibble :=
  (bitOf h2 q <<< 3) ||| (bitOf h3 q <<< 2) ||| (bitOf h0 q <<< 1) ||| bitOf h1 q

/-- Byte `k` of `spr_dec_unit(h0, h1, h2, h3)` (41_planar_sprite_codec.md R133). -/
def sprDecUnit (h0 h1 h2 h3 : Byte) (k : Nat) : Byte :=
  ((decPix h0 h1 h2 h3 (2 * k)).setWidth 8 <<< 4) ||| (decPix h0 h1 h2 h3 (2 * k + 1)).setWidth 8

/-- `pix(q)` of a linear group `l0 l1 l2 l3` (41_planar_sprite_codec.md R139). -/
def encPix (l0 l1 l2 l3 : Byte) (q : Nat) : Nibble :=
  if q % 2 = 0 then (pick4 l0 l1 l2 l3 (q / 2) >>> 4).setWidth 4 else (pick4 l0 l1 l2 l3 (q / 2) &&& 0x0F#8).setWidth 4

/-- `bit(pix, b) << q`, one term of `plane(b)` (41_planar_sprite_codec.md R139). -/
def planeBit (c : Nibble) (b q : Nat) : Byte := ((c >>> b) &&& 1#4).setWidth 8 <<< q

/-- `plane(b)` of a linear group (41_planar_sprite_codec.md R139); the eight terms are single bits in eight places, so the sum is
their `|||`. -/
def plane (l0 l1 l2 l3 : Byte) (b : Nat) : Byte :=
  (List.range 8).foldl (fun acc q => acc ||| planeBit (encPix l0 l1 l2 l3 q) b q) 0

/-- Byte `k` of `spr_enc_unit(l0, l1, l2, l3) = (plane(3), plane(2), plane(1), plane(0))` (41_planar_sprite_codec.md R139). -/
def sprEncUnit (l0 l1 l2 l3 : Byte) (k : Nat) : Byte := plane l0 l1 l2 l3 (3 - k)

/-- Byte `k` of the inverse of planar decode on one group, `(plane(1), plane(0), plane(3), plane(2))`; it is not what encode does
(41_planar_sprite_codec.md R145). -/
def sprDecInverse (l0 l1 l2 l3 : Byte) (k : Nat) : Byte := plane l0 l1 l2 l3 (k ^^^ 1)

/-- Byte `j` of the output of planar decode of `f` (42_dispatcher.md R183). -/
def planarDecByte (f : Nat → Byte) (j : Nat) : Byte :=
  let g := clearLow 2 j
  sprDecUnit (f g) (f (g + 1)) (f (g + 2)) (f (g + 3)) (j &&& 3)

/-- Byte `j` of the output of planar encode of `f`: it comes from the group `xor 0x40` (42_dispatcher.md R183). -/
def planarEncByte (f : Nat → Byte) (j : Nat) : Byte :=
  let g := clearLow 2 j ^^^ destXor
  sprEncUnit (f g) (f (g + 1)) (f (g + 2)) (f (g + 3)) (j &&& 3)

/-- Byte `j` of the output of an operation on the input bytes `f` (42_dispatcher.md R183, one row a line). -/
def outByte (c : Category) (d : Direction) (f : Nat → Byte) (j : Nat) : Byte :=
  match c, d with
  | .fix, .decode => nibbleSwap (f (decSrc j))
  | .fix, .encode => nibbleSwap (f (encOf j))
  | .sprite, .decode => planarDecByte f j
  | .cdSprite, .decode => planarDecByte f j
  | .sprite, .encode => planarEncByte f j
  | .cdSprite, .encode => planarEncByte f j

/-- `B[a]`; past the end, which no accepted length reaches (42_dispatcher.md R176), it is zero. -/
def byteAt (bs : List Byte) (a : Nat) : Byte := bs.getD a 0

/-- `transcode(B, cat, dir)` (42_dispatcher.md R183): a buffer of the input's length, or the error Length. -/
def transcode (bs : List Byte) (c : Category) (d : Direction) : Except Err (List Byte) :=
  if lengthOk c d bs.length then .ok ((List.range bs.length).map (outByte c d (byteAt bs))) else .error .length

/-- The bytes IN[0..n-1] of a buffer that covers [0, n). -/
def Memory.byteAt (m : Memory) (a : Nat) : Byte := (Memory.read m a).getD 0

/-- The first `n` bytes of a buffer. -/
def Memory.take (m : Memory) (n : Nat) : List Byte := (List.range n).map (Memory.byteAt m)

end Sys2Proof.Machine
end

