-- ==== Sys2Proof/Machine/Workers.lean ====
section
/-! DEFINITION. Several workers on one operation (spec/42_dispatcher.md R180, R181): work items assigned to workers in any way, run
in any interleaving, each worker with working registers of its own (10_state.md R30), IN shared and read-only, OUT shared.
`exec` is the machine with one worker in the reference order (R182), which R181 lets a model fix; this file is Start and the operation
with the others, from a state of the machine to a state of the machine (60_exceptions.md R218, log 10). -/

namespace Sys2Proof.Machine

/-- The iteration of each operation's loop. -/
def iterationOf : Instr → Iteration
  | .fixEnc => fixEncIter
  | .sprEnc => planarEncIter
  | .cdsEnc => planarEncIter
  | .fixDec => fixDecIter
  | .sprDec => planarDecIter
  | .cdsDec => planarDecIter

/-- The bytes a work item spans: a 32-byte unit for Fix, a 4-byte group for the planar operations (42_dispatcher.md R180). -/
def unitSize : Category → Nat
  | .fix => Config.unitFix
  | .sprite => Config.unitSpr
  | .cdSprite => Config.unitSpr

/-- How far an iteration moves the index counter: 4 for planar decode, else 1 (10_state.md R30). -/
def stride : Category → Direction → Nat
  | .fix, .decode => 1
  | .fix, .encode => 1
  | .sprite, .decode => 4
  | .sprite, .encode => 1
  | .cdSprite, .decode => 4
  | .cdSprite, .encode => 1

/-- The work items of an operation on N bytes, by their bases in ascending order (42_dispatcher.md R180). -/
def workItems (c : Category) (n : Nat) : List Nat := (List.range (n / unitSize c)).map (· * unitSize c)

/-- The indexes visited for the work item with base `b`, ascending. Within a planar item the rules fix that order (42_dispatcher.md R181);
the order of the 32 byte steps within a Fix unit they leave open ("in any order", 40_fix_tile_codec.md R110, R111), and there
ascending is the model's choice (log 17, DESIGN CHOICE). -/
def itemVisits (c : Category) (d : Direction) (b : Nat) : List Nat :=
  (List.range (unitSize c / stride c d)).map fun k => b + k * stride c d

/-- A worker: its own working registers and the indexes it has still to visit. -/
structure Worker where
  regs : Regs
  visits : List Nat
deriving DecidableEq, Repr

/-- The workers of one operation and what they share. -/
structure Pool where
  inp : Memory
  n : Nat
  out : Memory
  workers : List Worker
deriving DecidableEq, Repr

/-- The pool at the start of an operation: each worker with whatever its registers hold and the work items it is assigned. -/
def poolStart (i : Instr) (inp : Memory) (n : Nat) (asg : List (Regs × List Nat)) : Pool :=
  { inp := inp, n := n, out := []
    workers := asg.map fun a => { regs := a.1, visits := a.2.flatMap (itemVisits i.category i.direction) } }

/-- Worker `k` does the next iteration of its work; a worker that has none, or does not exist, does nothing. -/
def poolTurn (f : Iteration) (k : Nat) (p : Pool) : Except Fault Pool :=
  match p.workers[k]? with
  | none => .ok p
  | some w =>
    match w.visits with
    | [] => .ok p
    | v :: vs => do
      let e ← f p.inp p.n { regs := { w.regs with i := v }, out := p.out }
      .ok { p with out := e.out, workers := p.workers.set k { regs := e.regs, visits := vs } }

/-- The workers take turns as `schedule` says. -/
def poolRun (f : Iteration) : List Nat → Pool → Except Fault Pool
  | [], p => .ok p
  | k :: ks, p => do
    let p' ← poolTurn f k p
    poolRun f ks p'

/-- Every worker has finished (60_exceptions.md R218: "the operation is Done when all have finished"). -/
def Pool.finished (p : Pool) : Bool := p.workers.all fun w => w.visits.isEmpty

/-- What the workers have done so far, in the machine: OUT is the one they share, and STATUS goes to (Done, None) when all have
finished, else it stays (Busy, None) (60_exceptions.md R218, 42_dispatcher.md R177). The working registers in use are the
workers' own, so the engine's stay. -/
def State.putPool (s : State) (p : Pool) : State :=
  if p.finished then (s.setOut (some p.out)).setStatus .done .none else s.setOut (some p.out)

/-- The workers, all started at once on an operation Start has begun, after the turns `schedule` (60_exceptions.md R218): they work on
the machine's IN, its latched N and its OUT, which holds no value yet. -/
def runWorkers (i : Instr) (asg : List (Regs × List Nat)) (schedule : List Nat) (s : State) :
    Host.Outcome State Fault Refusal :=
  match poolRun (iterationOf i) schedule (poolStart i s.inp s.latch.len asg) with
  | .ok p => .next (s.putPool p)
  | .error r => .fault r

/-- An operation done by several workers, from a state outside phase Busy: the same Start and the same checks as with one
(42_dispatcher.md R170), then the pool, after the turns `schedule`. A schedule that ends early leaves it Busy. No Start is possible
in phase Busy (70_reset_and_hazards.md R236), so there it does nothing. -/
def execWithWorkers (i : Instr) (asg : List (Regs × List Nat)) (schedule : List Nat) (s : State) :
    Host.Outcome State Fault Refusal :=
  if s.phase = .busy then .next s
  else
    match start i.category i.direction s with
    | .next t => if t.phase = .busy then runWorkers i asg schedule t else .next t
    | .fault r => .fault r
    | .refused r => .refused r

/-- The host's Start with several workers: the operation CMD selects, or Usage before any other check (42_dispatcher.md R170,
60_exceptions.md R208). The work items are those of the operation selected, so their assignment depends on it. -/
def startMoveWithWorkers (asg : Instr → List (Regs × List Nat)) (schedule : List Nat) (s : State) :
    Host.Outcome State Fault Refusal :=
  match fetch s.cmd with
  | some i => execWithWorkers i (asg i) schedule s
  | none => .next s.startUsage

end Sys2Proof.Machine
end

