-- ==== Sys2Proof/Safety.lean ====
section
/-! DEFINITION. What counts as a good state and a good run, in the terms the statements use: the invariant of the machine, the
host's duties before Start (spec/70_reset_and_hazards.md R233), what it is for an operation to complete
(42_dispatcher.md R177), and what a run of several operations must show (60_exceptions.md R210). -/

namespace Sys2Proof.Machine

/-- The loop index whose iteration writes OUT[a] (42_dispatcher.md R187, read the other way round). -/
def visitOf (c : Category) (d : Direction) (a : Nat) : Nat :=
  match c, d with
  | .fix, .decode => a
  | .fix, .encode => a ^^^ 1
  | .sprite, .decode => clearLow 2 a
  | .cdSprite, .decode => clearLow 2 a
  | .sprite, .encode => (clearLow 2 a ^^^ destXor) + 3
  | .cdSprite, .encode => (clearLow 2 a ^^^ destXor) + 3

/-- The operation collects input bytes in INDEXES (10_state.md R33). -/
def collects : Category → Direction → Bool
  | .fix, .decode => false
  | .fix, .encode => false
  | .sprite, .decode => false
  | .cdSprite, .decode => false
  | .sprite, .encode => true
  | .cdSprite, .encode => true

/-- The low bytes of INDEXES are the `k` input bytes before offset `i`, the last one lowest (10_state.md R33). -/
def Collected (inp : Memory) (indexes : Word) (i k : Nat) : Prop :=
  ∀ j < k, (indexes >>> (8 * j)).setWidth 8 = Memory.byteAt inp (i - 1 - j)

/-- Operation `i` under way on the latched N, with `m` as its output so far: what has been written is right, and nothing else has been
written (20_memory.md R56, R61, 10_state.md R21). -/
structure Progress (s : State) (i : Instr) (m : Memory) : Prop where
  out_eq : s.out = some m
  length_ok : lengthOk i.category i.direction s.latch.len = true
  supplied : Memory.covers s.inp s.latch.len = true
  index_below : s.regs.i < s.latch.len
  index_aligned : s.regs.i % stride i.category i.direction = 0
  cells : ∀ a, Memory.read m a =
    if a < s.latch.len ∧ visitOf i.category i.direction a < s.regs.i then
      some (outByte i.category i.direction (Memory.byteAt s.inp) a)
    else none
  collected : collects i.category i.direction = true → Collected s.inp s.regs.indexes s.regs.i (s.regs.i % 4)

/-- Phase Busy: the latched CMD selects operation `i`, CMD and LEN are as they were latched (10_state.md R22, 20_memory.md R65), and
the operation is under way. -/
structure Running (s : State) (i : Instr) (m : Memory) : Prop where
  latched : fetch s.latch.cmd = some i
  cmd_kept : s.latch.cmd = s.cmd
  len_kept : s.latch.len = s.len
  progress : Progress s i m

/-- The invariant of the machine: the buffers are canonical, OUT exists exactly in phases Busy and Done, in Done every cell below
the operation's N holds a value (10_state.md R21), ERR is None but in Failed (R26), where it is an error the core produces
and heads the run's record (60_exceptions.md R202, R210). -/
structure State.Inv (s : State) : Prop where
  inp_wf : Memory.wf s.inp = true
  out_wf : ∀ m, s.out = some m → Memory.wf m = true
  no_output : s.phase = .idle ∨ s.phase = .failed → s.out = none
  running : s.phase = .busy → ∃ i m, Running s i m
  complete : s.phase = .done → ∃ m, s.out = some m ∧ ∀ a, (Memory.read m a).isSome = decide (a < s.latch.len)
  no_error : s.phase ≠ .failed → s.err = .none
  error : s.phase = .failed → (s.err = .usage ∨ s.err = .length) ∧ s.failures.head? = some s.err

/-- The host has done its duties for operation `i`: no operation is running, LEN passes the length check and IN[0..N-1] is supplied
(70_reset_and_hazards.md R233, 42_dispatcher.md R175). -/
structure State.Ready (s : State) (i : Instr) : Prop where
  not_busy : s.phase ≠ .busy
  length_ok : lengthOk i.category i.direction s.len = true
  supplied : Memory.covers s.inp s.len = true

/-- From `s`, an operation on N = LEN bytes has completed in `t` with `cell a` in OUT[a] (42_dispatcher.md R177): Done, no error, OUT
exactly those N cells, and IN, LEN and CMD as they were. -/
structure CompletedWith (s t : State) (cell : Nat → Byte) : Prop where
  phase : t.phase = .done
  err : t.err = .none
  out : ∃ m, t.out = some m ∧ ∀ a, Memory.read m a = if a < s.len then some (cell a) else none
  inp : t.inp = s.inp
  len : t.len = s.len
  cmd : t.cmd = s.cmd

/-- From `s`, a Start has ended in error `e` (60_exceptions.md R209): Failed, the error, no output buffer, and IN, LEN and CMD as they
were. -/
structure FailedWith (s t : State) (e : Err) : Prop where
  phase : t.phase = .failed
  err : t.err = e
  out : t.out = none
  inp : t.inp = s.inp
  len : t.len = s.len
  cmd : t.cmd = s.cmd

/-- In phase Busy this move of the host waits, because the machine does not offer it then (70_reset_and_hazards.md R236, log 4). -/
def HostMove.waits : HostMove → Bool
  | .writeCmd _ => true
  | .writeLen _ => true
  | .writeIn _ _ => true
  | .copyOutToIn => true
  | .start => true
  | .readStatus => false
  | .readLen => true
  | .readOut _ => true
  | .reset => false
  | .watch _ => false
  | .pass => false
  | .wait => true

/-- No operation of the run so far has failed (60_exceptions.md R210). -/
def State.NoFailure (s : State) : Prop := s.failures = []

end Sys2Proof.Machine
end

