-- ==== Sys2Proof/Certificates/Slice0/Obligations.lean ====
section
/-! DEFINITION. The statements for the provers, each the reading of a rule of spec/ named in its docstring. Where a state occurs, it
is any state, unless a premise says otherwise; the invariant used as a premise is `State.Inv`, itself stated to be kept by
every step and to hold at reset. -/

open Sys2Proof Sys2Proof.Machine

/-! ### Commands, tables, status -/

/-- 30_encoding.md R83: the complete map of CMD values. -/
def Obligations.CommandMapIsExact : Prop :=
  (decode 0x00#8 = .ok .fixEnc ∧ Instr.ofPair .fix .encode = .fixEnc) ∧
  (decode 0x01#8 = .ok .sprEnc ∧ Instr.ofPair .sprite .encode = .sprEnc) ∧
  (decode 0x02#8 = .ok .cdsEnc ∧ Instr.ofPair .cdSprite .encode = .cdsEnc) ∧
  (decode 0x04#8 = .ok .fixDec ∧ Instr.ofPair .fix .decode = .fixDec) ∧
  (decode 0x05#8 = .ok .sprDec ∧ Instr.ofPair .sprite .decode = .sprDec) ∧
  (decode 0x06#8 = .ok .cdsDec ∧ Instr.ofPair .cdSprite .decode = .cdsDec) ∧
  ∀ w : Byte, w ∉ [0x00#8, 0x01#8, 0x02#8, 0x04#8, 0x05#8, 0x06#8] → ∃ r, decode w = .error r

/-- 30_encoding.md R80, R81, R83: decoding and encoding are inverse to each other, each word having one meaning. -/
def Obligations.DecodeInvertsEncode : Prop :=
  (∀ i, decode (encode i) = .ok i) ∧ ∀ w i, decode w = .ok i → encode i = w

/-- 10_state.md R28: the two tables, and what is derived of them there. -/
def Obligations.TablesHoldTheirConstants : Prop :=
  columnOrder.toList = [2, 3, 0, 1] ∧ bitplaneMask.toList = [8, 4, 2, 1] ∧
  (∀ k < 4, column (column k) = k ∧ column k = k ^^^ 2) ∧
  ∀ k < 4, tableAt bitplaneMask k = 1#4 <<< (3 - k)

/-- 10_state.md R26: STATUS packs PHASE and ERR and its top bits read as zero, in every state. -/
def Obligations.StatusWordPacksPhaseAndErr : Prop :=
  ∀ s : State, s.status.extractLsb' 0 2 = s.phase.code ∧ s.status.extractLsb' 2 3 = s.err.code ∧
    s.status.extractLsb' 5 3 = 0 ∧
    (s.phase = .idle → s.err = .none → s.status = 0x00#8) ∧
    (s.phase = .busy → s.err = .none → s.status = 0x01#8) ∧
    (s.phase = .done → s.err = .none → s.status = 0x02#8) ∧
    (s.phase = .failed → s.err = .length → s.status = 0x13#8) ∧
    (s.phase = .failed → s.err = .usage → s.status = 0x07#8)

/-! ### Reset, Start and errors -/

/-- 10_state.md R38: the state after reset; the working registers, unspecified there, are not spoken of. -/
def Obligations.ResetLeavesTheSpecifiedState : Prop :=
  State.reset.phase = .idle ∧ State.reset.err = .none ∧ State.reset.len = 0 ∧ State.reset.cmd = none ∧
  (∀ a, Memory.read State.reset.inp a = none) ∧ State.reset.out = none ∧
  columnOrder.toList = [2, 3, 0, 1] ∧ bitplaneMask.toList = [8, 4, 2, 1]

/-- 70_reset_and_hazards.md R230: a reset puts the machine in that state from every phase, whatever was there. That
the reset input comes as a pending move of the host is the model's choice (log 18). -/
def Obligations.HostResetWorksFromAnyPhase : Prop :=
  ∀ (s : State) (ms : List HostMove), s.pending = .reset :: ms →
    ∃ t, step s = .next t ∧ t.phase = .idle ∧ t.err = .none ∧ t.len = 0 ∧ t.cmd = none ∧
      (∀ a, Memory.read t.inp a = none) ∧ t.out = none ∧
      columnOrder.toList = [2, 3, 0, 1] ∧ bitplaneMask.toList = [8, 4, 2, 1]

/-- 60_exceptions.md R201: Start with a reserved CMD, or with none ever written (70_reset_and_hazards.md R232), ends in
(Failed, Usage), whatever LEN and IN hold. -/
def Obligations.ReservedCommandFailsWithUsage : Prop :=
  ∀ (s : State) (ms : List HostMove), s.phase ≠ .busy → s.pending = .start :: ms →
    (s.cmd = none ∨ ∃ w, s.cmd = some w ∧ ∀ i, encode i ≠ w) →
    ∃ t, step s = .next t ∧ FailedWith s t .usage ∧ t.status = 0x07#8

/-- 60_exceptions.md R200: each operation refuses the lengths named there with LengthError, before any access. -/
def Obligations.BadLengthFailsWithLengthError : Prop :=
  ∀ s : State, s.phase ≠ .busy →
    (∀ i ∈ [Instr.fixDec, Instr.fixEnc], s.len = 0 ∨ s.len % 32 ≠ 0 →
      ∃ t, exec i s = .next t ∧ FailedWith s t .length ∧ t.status = 0x13#8) ∧
    (∀ i ∈ [Instr.sprDec, Instr.cdsDec], s.len = 0 ∨ s.len % 4 ≠ 0 →
      ∃ t, exec i s = .next t ∧ FailedWith s t .length ∧ t.status = 0x13#8) ∧
    (∀ i ∈ [Instr.sprEnc, Instr.cdsEnc], s.len = 0 ∨ s.len % 128 ≠ 0 →
      ∃ t, exec i s = .next t ∧ FailedWith s t .length ∧ t.status = 0x13#8)

/-- 42_dispatcher.md R175: the lengths each operation accepts. -/
def Obligations.LengthCheckAcceptsTheGranules : Prop :=
  ∀ n, (lengthOk .fix .decode n = true ↔ 0 < n ∧ n % 32 = 0) ∧ (lengthOk .fix .encode n = true ↔ 0 < n ∧ n % 32 = 0) ∧
    (lengthOk .sprite .decode n = true ↔ 0 < n ∧ n % 4 = 0) ∧ (lengthOk .cdSprite .decode n = true ↔ 0 < n ∧ n % 4 = 0) ∧
    (lengthOk .sprite .encode n = true ↔ 0 < n ∧ n % 128 = 0) ∧
    (lengthOk .cdSprite .encode n = true ↔ 0 < n ∧ n % 128 = 0)

/-- 70_reset_and_hazards.md R232: after its checks, a Start whose IN[0..N-1] is not fully supplied has no step;
that the checks come first is the model's inference (log 8). -/
def Obligations.MissingInputHasNoStep : Prop :=
  ∀ (i : Instr) (s : State), s.phase ≠ .busy → lengthOk i.category i.direction s.len = true →
    (∃ a < s.len, Memory.read s.inp a = none) → exec i s = .refused .inputNotSupplied

/-- 42_dispatcher.md R170, steps 1, 4 and 5, as the host that looks in sees them (log 5): OUT with no cell holding a value, Busy, I = 0,
CMD and LEN latched, and everything else as it was. That the other working registers keep their values is log 11; the latch and the
model's own fields are log 3 to log 7. -/
def Obligations.StartLeavesAnEmptyOutputAndBusy : Prop :=
  ∀ (i : Instr) (s : State), s.Ready i → s.watch = true →
    ∃ t, exec i s = .next t ∧ t.phase = .busy ∧ t.err = .none ∧ t.regs = { s.regs with i := 0 } ∧
      (∃ m, t.out = some m ∧ ∀ a, Memory.read m a = none) ∧ t.latch = { cmd := s.cmd, len := s.len } ∧
      t.inp = s.inp ∧ t.len = s.len ∧ t.cmd = s.cmd ∧ t.failures = s.failures ∧ t.pending = s.pending ∧
      t.watch = s.watch ∧ t.seen = s.seen

/-- 60_exceptions.md R202 with 42_dispatcher.md R176: outside phase Busy no operation faults, so no offset it forms is out of range and
no cell it reads is without a value. -/
def Obligations.OperationsNeverFault : Prop :=
  ∀ (i : Instr) (s : State) (r : Fault), s.phase ≠ .busy → exec i s ≠ .fault r

/-! ### Datapath and index functions -/

/-- 40_fix_tile_codec.md R101: the laws of nibble_swap. -/
def Obligations.NibbleSwapLaws : Prop :=
  (∀ b : Byte, nibbleSwap (nibbleSwap b) = b) ∧ Function.Bijective nibbleSwap ∧
  (∀ b : Byte, nibbleSwap b = b ↔ b.extractLsb' 4 4 = b.extractLsb' 0 4) ∧
  nibbleSwap 0x00 = 0x00 ∧ nibbleSwap 0xFF = 0xFF ∧ nibbleSwap 0xF0 = 0x0F ∧ nibbleSwap 0x0F = 0xF0 ∧
  nibbleSwap 0x80 = 0x08 ∧ nibbleSwap 0x01 = 0x10

/-- 40_fix_tile_codec.md R104: the decode mapping, all 32 entries, of every unit: entry `j : s` means that OUT[32u + j] takes
nibble_swap(IN[32u + s]). -/
def Obligations.FixDecodeTableOfEveryUnit : Prop :=
  ∀ (f : Nat → Byte) (u : Nat), (List.range 32).map (fun j => outByte .fix .decode f (32 * u + j)) =
    [17, 25, 1, 9, 16, 24, 0, 8, 19, 27, 3, 11, 18, 26, 2, 10,
     21, 29, 5, 13, 20, 28, 4, 12, 23, 31, 7, 15, 22, 30, 6, 14].map (fun s => nibbleSwap (f (32 * u + s)))

/-- 40_fix_tile_codec.md R108: the encode mapping by the byte written, all 32 entries, of every unit, and the closed form. -/
def Obligations.FixEncodeTableOfEveryUnit : Prop :=
  (∀ (f : Nat → Byte) (u : Nat), (List.range 32).map (fun h => outByte .fix .encode f (32 * u + h)) =
    [6, 2, 14, 10, 22, 18, 30, 26, 7, 3, 15, 11, 23, 19, 31, 27,
     4, 0, 12, 8, 20, 16, 28, 24, 5, 1, 13, 9, 21, 17, 29, 25].map (fun s => nibbleSwap (f (32 * u + s)))) ∧
  ∀ (f : Nat → Byte) (h : Nat), outByte .fix .encode f h =
    nibbleSwap (f ((h - h % 32) + (((h >>> 3) &&& 3) ^^^ 2) + (((h &&& 7) ^^^ 1) <<< 2)))

/-- 40_fix_tile_codec.md R109: the two index functions are inverse to each other. -/
def Obligations.FixIndexFunctionsAreInverse : Prop :=
  ∀ j, encOf (decSrc j) = j ∧ decSrc (encOf j) = j

/-- 40_fix_tile_codec.md R106, R107: over [0, N) with N a multiple of 32, each Fix index function meets every offset exactly once. -/
def Obligations.FixIndexFunctionsPermuteTheBuffer : Prop :=
  ∀ n, n % 32 = 0 → ∀ f ∈ [decSrc, encSrc, encDst],
    (∀ i < n, f i < n ∧ f i / 32 = i / 32) ∧ ∀ a < n, ∃! i, i < n ∧ f i = a

/-- 41_planar_sprite_codec.md R134, R142: each planar unit function is a bijection on 4-byte groups. -/
def Obligations.PlanarUnitsAreBijective : Prop :=
  Function.Bijective (fun h : Byte × Byte × Byte × Byte =>
    (sprDecUnit h.1 h.2.1 h.2.2.1 h.2.2.2 0, sprDecUnit h.1 h.2.1 h.2.2.1 h.2.2.2 1,
     sprDecUnit h.1 h.2.1 h.2.2.1 h.2.2.2 2, sprDecUnit h.1 h.2.1 h.2.2.1 h.2.2.2 3)) ∧
  Function.Bijective (fun l : Byte × Byte × Byte × Byte =>
    (sprEncUnit l.1 l.2.1 l.2.2.1 l.2.2.2 0, sprEncUnit l.1 l.2.1 l.2.2.1 l.2.2.2 1,
     sprEncUnit l.1 l.2.1 l.2.2.1 l.2.2.2 2, sprEncUnit l.1 l.2.1 l.2.2.1 l.2.2.2 3))

/-- 41_planar_sprite_codec.md R145 (b): the inverse of decode on one group writes planes 1, 0, 3, 2, at the same base. -/
def Obligations.PlanarDecodeHasItsOwnInverse : Prop :=
  ∀ l0 l1 l2 l3 : Byte, ∀ k < 4,
    sprDecUnit (sprDecInverse l0 l1 l2 l3 0) (sprDecInverse l0 l1 l2 l3 1) (sprDecInverse l0 l1 l2 l3 2)
      (sprDecInverse l0 l1 l2 l3 3) k = pick4 l0 l1 l2 l3 k

/-- 41_planar_sprite_codec.md R140: the destination of a lane; the two readings of the unparenthesised expression are equal; the halves
of every 128-byte block are exchanged. -/
def Obligations.PlanarPlacementReadingsAgree : Prop :=
  (∀ i, ∀ bp < 4, encPlace (clearLow 2 i) bp = (clearLow 2 i ^^^ 0x40) + bp ∧
    encPlace (clearLow 2 i) bp = clearLow 2 i ^^^ (0x40 + bp)) ∧
  (∀ g, (g % 128 < 64 → g ^^^ 0x40 = g + 64) ∧ (64 ≤ g % 128 → g ^^^ 0x40 = g - 64)) ∧
  encPlace 0x04 2 = 0x46 ∧ encPlace 0x7C 3 = 0x3F ∧ encPlace 0x80 0 = 0xC0

/-- 41_planar_sprite_codec.md R141: the map of group bases is an involution; all destinations lie in the buffer exactly when N is a
multiple of 128; and then every offset is the destination of exactly one lane of one group. -/
def Obligations.PlanarDestinationsFitExactlyBlocks : Prop :=
  (∀ g, (g ^^^ destXor) ^^^ destXor = g) ∧
  ∀ n, 0 < n → n % 4 = 0 →
    ((∀ g bp, g % 4 = 0 → g < n → bp < 4 → encPlace g bp < n) ↔ n % 128 = 0) ∧
    (n % 128 = 0 → ∀ a < n, ∃! p : Nat × Nat, p.1 % 4 = 0 ∧ p.1 < n ∧ p.2 < 4 ∧ encPlace p.1 p.2 = a)

/-! ### The six operations

The statements of completion here take a host that does not look in while Busy, the model's own field `watch` (log 5);
`WatchedRunEndsAsTheWholeStep` and `BusyReachesDone` carry them over to one that does. -/

/-- 40_fix_tile_codec.md R110: FIX.DEC, with the fixed points of its index map. -/
def Obligations.FixDecDecodesTheBuffer : Prop :=
  encode .fixDec = 0x04#8 ∧ ∀ s : State, s.phase ≠ .busy →
    ((s.len = 0 ∨ s.len % 32 ≠ 0) → ∃ t, exec .fixDec s = .next t ∧ FailedWith s t .length) ∧
    (0 < s.len → s.len % 32 = 0 → Memory.covers s.inp s.len = true → s.watch = false →
      ∃ t, exec .fixDec s = .next t ∧
        CompletedWith s t fun i => nibbleSwap (Memory.byteAt s.inp (decSrc i))) ∧
    ∀ j < 32, decSrc j = j ↔ j = 11 ∨ j = 20

/-- 40_fix_tile_codec.md R111: FIX.ENC, by the loop index and by the byte written, with the fixed points of its index map. -/
def Obligations.FixEncEncodesTheBuffer : Prop :=
  encode .fixEnc = 0x00#8 ∧ ∀ s : State, s.phase ≠ .busy →
    ((s.len = 0 ∨ s.len % 32 ≠ 0) → ∃ t, exec .fixEnc s = .next t ∧ FailedWith s t .length) ∧
    (0 < s.len → s.len % 32 = 0 → Memory.covers s.inp s.len = true → s.watch = false →
      ∃ t m, exec .fixEnc s = .next t ∧
        CompletedWith s t (fun h => nibbleSwap (Memory.byteAt s.inp (encOf h))) ∧ t.out = some m ∧
        ∀ i < s.len, Memory.read m (i ^^^ 1) = some (nibbleSwap (Memory.byteAt s.inp (encSrc i)))) ∧
    ∀ j < 32, encOf j = j ↔ j = 11 ∨ j = 20

/-- 41_planar_sprite_codec.md R150: CDS.DEC, in the closed form of R133. -/
def Obligations.CdsDecDecodesTheBuffer : Prop :=
  encode .cdsDec = 0x06#8 ∧ ∀ s : State, s.phase ≠ .busy →
    ((s.len = 0 ∨ s.len % 4 ≠ 0) → ∃ t, exec .cdsDec s = .next t ∧ FailedWith s t .length) ∧
    (0 < s.len → s.len % 4 = 0 → Memory.covers s.inp s.len = true → s.watch = false →
      ∃ t m, exec .cdsDec s = .next t ∧ CompletedWith s t (planarDecByte (Memory.byteAt s.inp)) ∧ t.out = some m ∧
        ∀ g k, g % 4 = 0 → g < s.len → k < 4 → Memory.read m (g + k) = some (sprDecUnit (Memory.byteAt s.inp g)
          (Memory.byteAt s.inp (g + 1)) (Memory.byteAt s.inp (g + 2)) (Memory.byteAt s.inp (g + 3)) k))

/-- 41_planar_sprite_codec.md R151: CDS.ENC, in the closed form of R139 at the place of R140. -/
def Obligations.CdsEncEncodesTheBuffer : Prop :=
  encode .cdsEnc = 0x02#8 ∧ ∀ s : State, s.phase ≠ .busy →
    ((s.len = 0 ∨ s.len % 128 ≠ 0) → ∃ t, exec .cdsEnc s = .next t ∧ FailedWith s t .length) ∧
    (0 < s.len → s.len % 128 = 0 → Memory.covers s.inp s.len = true → s.watch = false →
      ∃ t m, exec .cdsEnc s = .next t ∧ CompletedWith s t (planarEncByte (Memory.byteAt s.inp)) ∧ t.out = some m ∧
        ∀ g k, g % 4 = 0 → g < s.len → k < 4 → Memory.read m (encPlace g k) = some (sprEncUnit (Memory.byteAt s.inp g)
          (Memory.byteAt s.inp (g + 1)) (Memory.byteAt s.inp (g + 2)) (Memory.byteAt s.inp (g + 3)) k))

/-- 41_planar_sprite_codec.md R152: SPR.DEC; nothing is claimed of cartridge data (R154). -/
def Obligations.SprDecDecodesTheBuffer : Prop :=
  encode .sprDec = 0x05#8 ∧ ∀ s : State, s.phase ≠ .busy →
    ((s.len = 0 ∨ s.len % 4 ≠ 0) → ∃ t, exec .sprDec s = .next t ∧ FailedWith s t .length) ∧
    (0 < s.len → s.len % 4 = 0 → Memory.covers s.inp s.len = true → s.watch = false →
      ∃ t m, exec .sprDec s = .next t ∧ CompletedWith s t (planarDecByte (Memory.byteAt s.inp)) ∧ t.out = some m ∧
        ∀ g k, g % 4 = 0 → g < s.len → k < 4 → Memory.read m (g + k) = some (sprDecUnit (Memory.byteAt s.inp g)
          (Memory.byteAt s.inp (g + 1)) (Memory.byteAt s.inp (g + 2)) (Memory.byteAt s.inp (g + 3)) k))

/-- 41_planar_sprite_codec.md R153: SPR.ENC; nothing is claimed of cartridge data (R154). -/
def Obligations.SprEncEncodesTheBuffer : Prop :=
  encode .sprEnc = 0x01#8 ∧ ∀ s : State, s.phase ≠ .busy →
    ((s.len = 0 ∨ s.len % 128 ≠ 0) → ∃ t, exec .sprEnc s = .next t ∧ FailedWith s t .length) ∧
    (0 < s.len → s.len % 128 = 0 → Memory.covers s.inp s.len = true → s.watch = false →
      ∃ t m, exec .sprEnc s = .next t ∧ CompletedWith s t (planarEncByte (Memory.byteAt s.inp)) ∧ t.out = some m ∧
        ∀ g k, g % 4 = 0 → g < s.len → k < 4 → Memory.read m (encPlace g k) = some (sprEncUnit (Memory.byteAt s.inp g)
          (Memory.byteAt s.inp (g + 1)) (Memory.byteAt s.inp (g + 2)) (Memory.byteAt s.inp (g + 3)) k))

/-- 42_dispatcher.md R177 with R183: an operation ends Done, with OUT exactly `transcode(IN, CAT, DIR)` cell by cell from offset 0, when
the function answers a buffer, and Failed with no output when it answers the error. -/
def Obligations.ExecIsTranscode : Prop :=
  ∀ (i : Instr) (s : State), s.phase ≠ .busy → s.watch = false → Memory.covers s.inp s.len = true →
    (∀ bs, transcode (Memory.take s.inp s.len) i.category i.direction = .ok bs →
      ∃ t, exec i s = .next t ∧ t.phase = .done ∧ t.err = .none ∧ t.out = some ((List.range s.len).zip bs)) ∧
    (∀ e, transcode (Memory.take s.inp s.len) i.category i.direction = .error e →
      ∃ t, exec i s = .next t ∧ t.phase = .failed ∧ t.err = e ∧ t.out = none)

/-! ### One iteration, and frames -/

/-- 40_fix_tile_codec.md R110, R111, one step of each loop in phase Busy (10_state.md R30): the byte written, its place, I <- i + 1, and
Done at i = N; the whole next state. -/
def Obligations.FixStepWritesItsByte : Prop :=
  ∀ (s : State) (m : Memory), s.phase = .busy → s.watch = true → s.out = some m → s.regs.i < s.latch.len →
    s.latch.len % 32 = 0 → Memory.covers s.inp s.latch.len = true →
    exec .fixDec s = .next (State.completeIfAllDone { s with
      regs := { s.regs with i := s.regs.i + 1 }
      out := some (Memory.write m s.regs.i (nibbleSwap (Memory.byteAt s.inp (decSrc s.regs.i)))) }) ∧
    exec .fixEnc s = .next (State.completeIfAllDone { s with
      regs := { s.regs with i := s.regs.i + 1 }
      out := some (Memory.write m (encDst s.regs.i) (nibbleSwap (Memory.byteAt s.inp (encSrc s.regs.i)))) })

/-- 41_planar_sprite_codec.md R130 to R133, one group of planar decode in phase Busy: the four bytes, nothing else, I <- i + 4, whatever
the working registers held. -/
def Obligations.PlanarDecodeStepWritesItsGroup : Prop :=
  ∀ (s : State) (m : Memory), ∀ i ∈ [Instr.sprDec, Instr.cdsDec], s.phase = .busy → s.watch = true → s.out = some m →
    s.regs.i + 3 < s.latch.len → Memory.covers s.inp s.latch.len = true →
    ∃ t m', exec i s = .next t ∧ t.out = some m' ∧ t.regs.i = s.regs.i + 4 ∧
      t.phase = (if s.latch.len ≤ s.regs.i + 4 then .done else .busy) ∧
      ∀ a, Memory.read m' a =
        if s.regs.i ≤ a ∧ a < s.regs.i + 4 then some (sprDecUnit (Memory.byteAt s.inp s.regs.i)
          (Memory.byteAt s.inp (s.regs.i + 1)) (Memory.byteAt s.inp (s.regs.i + 2)) (Memory.byteAt s.inp (s.regs.i + 3))
          (a - s.regs.i))
        else Memory.read m a

/-- 41_planar_sprite_codec.md R136, R138: a byte step of planar encode that is not its group's last writes nothing and shifts the byte
into INDEXES. -/
def Obligations.PlanarEncodeStepCollectsItsByte : Prop :=
  ∀ (s : State) (m : Memory), ∀ i ∈ [Instr.sprEnc, Instr.cdsEnc], s.phase = .busy → s.watch = true → s.out = some m →
    s.regs.i < s.latch.len → s.regs.i % 4 ≠ 3 → Memory.covers s.inp s.latch.len = true →
    exec i s = .next (State.completeIfAllDone { s with regs := { s.regs with
      i := s.regs.i + 1
      indexes := (s.regs.indexes <<< 8) ||| (Memory.byteAt s.inp s.regs.i).setWidth 32 } })

/-- 41_planar_sprite_codec.md R136 to R140 with 10_state.md R33: four byte steps of planar encode from a group's base write the group at
its place, and nothing else, whatever INDEXES and the other working registers held before. -/
def Obligations.PlanarEncodeGroupIsWrittenAtItsPlace : Prop :=
  ∀ (e : Engine) (inp : Memory) (n : Nat), n % 128 = 0 → Memory.covers inp n = true → e.regs.i % 4 = 0 → e.regs.i < n →
    ∃ e1 e2 e3 e4, planarEncIter inp n e = .ok e1 ∧ planarEncIter inp n e1 = .ok e2 ∧ planarEncIter inp n e2 = .ok e3 ∧
      planarEncIter inp n e3 = .ok e4 ∧ e4.regs.i = e.regs.i + 4 ∧
      ∀ a, Memory.read e4.out a =
        if e.regs.i ^^^ 0x40 ≤ a ∧ a < (e.regs.i ^^^ 0x40) + 4 then some (sprEncUnit (Memory.byteAt inp e.regs.i)
          (Memory.byteAt inp (e.regs.i + 1)) (Memory.byteAt inp (e.regs.i + 2)) (Memory.byteAt inp (e.regs.i + 3))
          (a - (e.regs.i ^^^ 0x40)))
        else Memory.read e.out a

/-- 10_state.md R20, R22, R25 with 60_exceptions.md R209: no operation writes IN, LEN or CMD, in any state. The other clauses are the
model's own (log 3, log 4, log 5, log 6, log 7): what is latched, the host's moves, and the record of failures. -/
def Obligations.OperationsLeaveTheHostsStateAlone : Prop :=
  ∀ (i : Instr) (s t : State), exec i s = .next t →
    t.inp = s.inp ∧ t.len = s.len ∧ t.cmd = s.cmd ∧ t.pending = s.pending ∧ t.watch = s.watch ∧ t.seen = s.seen ∧
    t.failures = (if t.phase = .failed ∧ s.phase ≠ .busy then .length :: s.failures else s.failures) ∧
    t.latch = (if s.phase = .busy then s.latch else { cmd := s.cmd, len := s.len })

/-- 10_state.md R29, the columns "used by" and "written": the working registers an operation does not use keep their values, and a
refused Start leaves all of them, in any state (log 11). -/
def Obligations.OperationsLeaveOtherWorkingRegistersAlone : Prop :=
  ∀ (s t : State),
    (∀ i ∈ [Instr.fixDec, Instr.fixEnc], exec i s = .next t → t.regs = { s.regs with i := t.regs.i }) ∧
    (∀ i ∈ [Instr.sprDec, Instr.cdsDec], exec i s = .next t →
      t.regs.indexes = s.regs.indexes ∧ t.regs.mask = s.regs.mask ∧ t.regs.bitplane = s.regs.bitplane ∧
      t.regs.bp = s.regs.bp) ∧
    (∀ i ∈ [Instr.sprEnc, Instr.cdsEnc], exec i s = .next t → t.regs.word = s.regs.word ∧ t.regs.hnib = s.regs.hnib) ∧
    ∀ i, exec i s = .next t → s.phase ≠ .busy → t.phase = .failed → t.regs = s.regs

/-- 42_dispatcher.md R187, the column "writes at": in phase Busy one iteration leaves every cell of OUT as it was but those at the offsets
it forms, in any state. -/
def Obligations.BusyStepWritesOnlyAtItsOffsets : Prop :=
  ∀ (s t : State) (m m' : Memory), s.phase = .busy → s.watch = true → s.out = some m → t.out = some m' →
    (exec .fixDec s = .next t → ∀ a, a ≠ s.regs.i → Memory.read m' a = Memory.read m a) ∧
    (exec .fixEnc s = .next t → ∀ a, a ≠ encDst s.regs.i → Memory.read m' a = Memory.read m a) ∧
    (∀ i ∈ [Instr.sprDec, Instr.cdsDec], exec i s = .next t →
      ∀ a, (∀ k < 4, a ≠ s.regs.i + k) → Memory.read m' a = Memory.read m a) ∧
    (∀ i ∈ [Instr.sprEnc, Instr.cdsEnc], exec i s = .next t →
      ∀ a, (s.regs.i &&& 3 = 3 → ∀ bp < 4, a ≠ encPlace (clearLow 2 s.regs.i) bp) → Memory.read m' a = Memory.read m a)

/-! ### The machine and its host -/

/-- 42_dispatcher.md R170, R171: when CMD decodes to an operation, the step that takes the host's Start is exec of that operation with the
move taken; in phase Busy, the step is exec of the latched operation, with a `pass` taken if the host has one, and with a move
that waits left pending. The pending moves are the model's own (log 4). -/
def Obligations.StepRunsTheDecodedInstruction : Prop :=
  ∀ (s : State) (w : Byte) (i : Instr), decode w = .ok i →
    (∀ ms, s.phase ≠ .busy → s.cmd = some w → s.pending = .start :: ms → step s = exec i (s.setPending ms)) ∧
    (s.phase = .busy → s.latch.cmd = some w → s.pending = [] → step s = exec i s) ∧
    (∀ ms, s.phase = .busy → s.latch.cmd = some w → s.pending = .pass :: ms → step s = exec i (s.setPending ms)) ∧
    (∀ m ms, s.phase = .busy → s.latch.cmd = some w → s.pending = m :: ms → m.waits = true → step s = exec i s)

/-- 70_reset_and_hazards.md R236, the rows Idle, Done and Failed: the host's writes do what they say and nothing else; a
move taken is off the pending ones (log 4). That IN keeps its cells when LEN is written, those at N and beyond too, and that a write
of consecutive bytes may reach past N and leaves the other cells, is the model's choice (log 15). -/
def Obligations.HostWritesTakeEffect : Prop :=
  ∀ (s : State) (ms : List HostMove), s.phase ≠ .busy →
    (∀ w, s.pending = .writeCmd w :: ms → step s = .next { s with cmd := some w, pending := ms }) ∧
    (∀ n, s.pending = .writeLen n :: ms → step s = .next { s with len := n, pending := ms }) ∧
    (∀ a bs, s.pending = .writeIn a bs :: ms → ∃ m, step s = .next { s with inp := m, pending := ms } ∧
      ∀ x, Memory.read m x = if a ≤ x ∧ x < a + bs.length then bs[x - a]? else Memory.read s.inp x)

/-- 70_reset_and_hazards.md R239 with R236 and 60_exceptions.md R209: a host read of OUT[a] gives the byte in phase Done, for a below the
operation's N, and has no step elsewhere; nor has the host's copy of OUT to IN outside phase Done. The record of what was read is
the model's own (log 6), and N of OUT in phase Done is the latched one (log 3). -/
def Obligations.OutputIsReadOnlyInDone : Prop :=
  ∀ (s : State) (ms : List HostMove), s.Inv → s.phase ≠ .busy →
    (∀ a, s.pending = .readOut a :: ms →
      (s.phase = .done → a < s.latch.len → ∃ m b, s.out = some m ∧ Memory.read m a = some b ∧
        step s = .next { s with pending := ms, seen := .out a b :: s.seen }) ∧
      (s.phase ≠ .done ∨ s.latch.len ≤ a → step s = .refused .noOutputToRead)) ∧
    (s.pending = .copyOutToIn :: ms → s.phase ≠ .done → step s = .refused .noOutputToRead)

/-- 70_reset_and_hazards.md R236 with 60_exceptions.md R200: the host reads STATUS in every phase, and LEN in phase Failed; what it gets is
recorded (log 6) and nothing else changes. That it reads LEN in no other phase is the model's reading of the table (log 9). -/
def Obligations.HostReadsGiveStatusAndLength : Prop :=
  ∀ (s : State) (ms : List HostMove),
    (s.pending = .readStatus :: ms → step s = .next { s with pending := ms, seen := .status s.status :: s.seen }) ∧
    (s.phase = .failed → s.pending = .readLen :: ms → step s = .next { s with pending := ms, seen := .len s.len :: s.seen }) ∧
    (s.phase = .idle ∨ s.phase = .done → s.pending = .readLen :: ms → step s = .refused .lenNotReadable)

/-- 30_encoding.md R91: between operations the host copies OUT to IN; IN[0..N-1] is then the output, and what IN held past it and all
else are as they were (log 15); N is the latched one (log 3). -/
def Obligations.CopyMakesTheOutputTheNextInput : Prop :=
  ∀ (s : State) (ms : List HostMove), s.Inv → s.phase = .done → s.pending = .copyOutToIn :: ms →
    ∃ m m', s.out = some m ∧ step s = .next { s with inp := m', pending := ms } ∧
      ∀ a, Memory.read m' a = if a < s.latch.len then Memory.read m a else Memory.read s.inp a

/-- 70_reset_and_hazards.md R236, the row Busy, R237 and 10_state.md R22: in phase Busy nothing but a reset changes IN, LEN or CMD, and no
move of the host that would is taken: it waits (log 4). That a reset is itself such a move is the model's choice (log 18). -/
def Obligations.BusyKeepsInputAndCommand : Prop :=
  ∀ s t : State, s.phase = .busy → step s = .next t →
    (t.inp = s.inp ∧ t.len = s.len ∧ t.cmd = s.cmd ∧ t.latch = s.latch ∧
      (t.pending = s.pending ∨ ∃ m, s.pending = m :: t.pending ∧ (m = .readStatus ∨ m = .pass ∨ ∃ b, m = .watch b))) ∨
    s.pending = .reset :: t.pending

/-- 10_state.md R27: the transitions a step can make, from any state. A Start whose operation the host does not watch passes through Busy
within its step (log 5). A reset comes as a move of the host (log 18). -/
def Obligations.PhasesMoveAsSpecified : Prop :=
  ∀ s t : State, step s = .next t →
    t.phase = s.phase ∨ (t.phase = .idle ∧ s.pending.head? = some .reset) ∨ (s.phase = .busy ∧ t.phase = .done) ∨
    (s.phase ≠ .busy ∧ s.pending.head? = some .start ∧ (t.phase = .busy ∨ t.phase = .done ∨ t.phase = .failed))

/-- 60_exceptions.md R210, what a model should keep (log 7): the run's record of failed operations only grows, a Start that fails adds
its error, and a run without failure has had none. -/
def Obligations.FailureRecordIsKept : Prop :=
  ∀ s t : State, step s = .next t →
    (t.failures = s.failures ∨ (t.phase = .failed ∧ t.failures = t.err :: s.failures)) ∧
    (s.phase ≠ .busy → s.pending.head? = some .start → t.phase = .failed → t.failures = t.err :: s.failures) ∧
    (t.NoFailure → s.NoFailure)

/-- The invariant of the machine is kept by every step, from every state that has it: the buffers stay canonical, OUT exists as
10_state.md R21 says, in Busy exactly the cells of the visited indexes are written and they are right (20_memory.md R56, R61), ERR is
as 10_state.md R26 says, and the record of failures (log 7) has it at its head. -/
def Obligations.StepKeepsTheInvariant : Prop :=
  ∀ s t : State, s.Inv → step s = .next t → t.Inv

/-- The invariant holds at reset (10_state.md R38). -/
def Obligations.ResetHasTheInvariant : Prop := State.reset.Inv

/-- 60_exceptions.md R202: from phase Busy a step always has a next state, in Busy, Done or, by a reset, Idle; no error is raised. A
reset comes as a move of the host (log 18). -/
def Obligations.BusyNeverFails : Prop :=
  ∀ s : State, s.Inv → s.phase = .busy →
    ∃ t, step s = .next t ∧ t.failures = s.failures ∧
      (t.phase = .busy ∨ t.phase = .done ∨ (t.phase = .idle ∧ ∃ ms, s.pending = .reset :: ms))

/-- 42_dispatcher.md R185 with 70_reset_and_hazards.md R246: from any Busy state of the machine, with no move of the host pending or
one that waits (70_reset_and_hazards.md R236, log 4), at most as many steps as bytes remain lead to Done, and OUT is then the
transcoding of IN. -/
def Obligations.BusyReachesDone : Prop :=
  ∀ s : State, s.Inv → s.phase = .busy → (∀ m ∈ s.pending.head?, m.waits = true) →
    ∃ k ≤ s.latch.len - s.regs.i, ∃ t i bs, Host.Core.run core k s = .next t ∧ t.phase = .done ∧
      t.pending = s.pending ∧ fetch s.latch.cmd = some i ∧ transcode (Memory.take s.inp s.latch.len) i.category i.direction = .ok bs ∧
      t.out = some ((List.range s.latch.len).zip bs)

/-- The host that looks in after every iteration and the host that waits for Done find the same state (log 5, 42_dispatcher.md R182). -/
def Obligations.WatchedRunEndsAsTheWholeStep : Prop :=
  ∀ (i : Instr) (s : State) (w : Byte), s.Ready i → s.watch = false → s.cmd = some w → decode w = .ok i → s.pending = [] →
    ∃ t u, exec i s = .next t ∧ exec i (s.setWatch true) = .next u ∧
      Host.Core.run core (s.len / stride i.category i.direction) u = .next (t.setWatch true)

/-- 20_memory.md R56: no cell of OUT is written twice: in phase Busy the offsets at which the next iteration writes (42_dispatcher.md R187)
are cells that hold no value yet, and a step leaves every cell that holds one as it is. -/
def Obligations.OutputCellsAreWrittenOnce : Prop :=
  (∀ (s : State) (m : Memory), s.Inv → s.phase = .busy → s.out = some m →
    (fetch s.latch.cmd = some .fixDec → Memory.read m s.regs.i = none) ∧
    (fetch s.latch.cmd = some .fixEnc → Memory.read m (encDst s.regs.i) = none) ∧
    (∀ i ∈ [Instr.sprDec, Instr.cdsDec], fetch s.latch.cmd = some i → ∀ k < 4, Memory.read m (s.regs.i + k) = none) ∧
    (∀ i ∈ [Instr.sprEnc, Instr.cdsEnc], fetch s.latch.cmd = some i → s.regs.i &&& 3 = 3 →
      ∀ bp < 4, Memory.read m (encPlace (clearLow 2 s.regs.i) bp) = none)) ∧
  ∀ (s t : State) (m m' : Memory), s.Inv → s.phase = .busy → step s = .next t → s.out = some m → t.out = some m' →
    ∀ a b, Memory.read m a = some b → Memory.read m' a = some b

/-- 10_state.md R36: the result of an operation is a function of (IN, N, CAT, DIR) alone; working registers, earlier operations and their
output, and what lies in IN past N have no part in it (a host that does not look in, log 5). -/
def Obligations.ResultDependsOnlyOnInputAndCommand : Prop :=
  ∀ (i : Instr) (s s' t t' : State), s.phase ≠ .busy → s'.phase ≠ .busy → s.watch = false → s'.watch = false →
    s.len = s'.len → (∀ a < s.len, Memory.read s.inp a = Memory.read s'.inp a) →
    exec i s = .next t → exec i s' = .next t' → t.out = t'.out ∧ t.phase = t'.phase ∧ t.err = t'.err

/-- 42_dispatcher.md R181: every assignment of the work items to workers, whatever their registers hold, and every interleaving runs
without an error, and when all have finished OUT is the transcoding, cell by cell. The interleaving is by iterations (log 10),
ascending within a work item; in a Fix unit that is the model's choice (log 17). -/
def Obligations.AnyWorkersGiveTheSameOutput : Prop :=
  ∀ (i : Instr) (inp : Memory) (n : Nat) (asg : List (Regs × List Nat)) (schedule : List Nat),
    lengthOk i.category i.direction n = true → Memory.covers inp n = true →
    (asg.flatMap Prod.snd).Perm (workItems i.category n) →
    ∃ p, poolRun (iterationOf i) schedule (poolStart i inp n asg) = .ok p ∧
      (p.finished = true → ∀ bs, transcode (Memory.take inp n) i.category i.direction = .ok bs →
        p.out = (List.range n).zip bs)

/-- 60_exceptions.md R218 with 42_dispatcher.md R170, R177, R181 and 70_reset_and_hazards.md R246: Start begins all workers, under the same
checks as with one; the machine is Done when all have finished and Busy until then; OUT, PHASE and ERR are then those of the one
worker of `exec`; and a schedule that gives every worker N turns finishes. The interleaving is by iterations (log 10),
ascending within a work item, in a Fix unit by the model's choice (log 17); the frame
clauses on the latch and the record are the model's own (log 3, log 7). -/
def Obligations.WorkersCompleteTheOperation : Prop :=
  ∀ (i : Instr) (s : State) (asg : Instr → List (Regs × List Nat)) (schedule : List Nat), s.phase ≠ .busy →
    (fetch s.cmd = none → ∃ t, startMoveWithWorkers asg schedule s = .next t ∧ FailedWith s t .usage) ∧
    (fetch s.cmd = some i → startMoveWithWorkers asg schedule s = execWithWorkers i (asg i) schedule s) ∧
    (lengthOk i.category i.direction s.len = false →
      ∃ t, execWithWorkers i (asg i) schedule s = .next t ∧ FailedWith s t .length) ∧
    (s.Ready i → ((asg i).flatMap Prod.snd).Perm (workItems i.category s.len) →
      ∃ p t, poolRun (iterationOf i) schedule (poolStart i s.inp s.len (asg i)) = .ok p ∧
        execWithWorkers i (asg i) schedule s = .next t ∧ t.out = some p.out ∧ t.failures = s.failures ∧
        t.latch = { cmd := s.cmd, len := s.len } ∧
        (p.finished = false → t.phase = .busy ∧ t.err = .none) ∧
        (p.finished = true → CompletedWith s t (outByte i.category i.direction (Memory.byteAt s.inp)) ∧
          ∃ u, exec i (s.setWatch false) = .next u ∧ t.out = u.out ∧ t.phase = u.phase ∧ t.err = u.err) ∧
        ((∀ k < (asg i).length, s.len ≤ schedule.count k) → p.finished = true))

/-! ### Laws of the function -/

/-- 42_dispatcher.md R178: the output has the input's length. -/
def Obligations.LengthIsPreserved : Prop :=
  ∀ (bs cs : List Byte) (c : Category) (d : Direction), transcode bs c d = .ok cs → cs.length = bs.length

/-- 40_fix_tile_codec.md R114: the round-trip law of the Fix codec. -/
def Obligations.FixRoundTripIsTheIdentity : Prop :=
  ∀ bs : List Byte, 0 < bs.length → bs.length % 32 = 0 →
    (∃ cs, transcode bs .fix .encode = .ok cs ∧ transcode cs .fix .decode = .ok bs) ∧
    (∃ cs, transcode bs .fix .decode = .ok cs ∧ transcode cs .fix .encode = .ok bs)

/-- 41_planar_sprite_codec.md R143: encode after decode. -/
def Obligations.PlanarEncodeAfterDecode : Prop :=
  ∀ (bs : List Byte), ∀ c ∈ [Category.sprite, Category.cdSprite], 0 < bs.length → bs.length % 128 = 0 →
    ∃ cs ds, transcode bs c .decode = .ok cs ∧ transcode cs c .encode = .ok ds ∧
      ∀ h < bs.length, byteAt ds h = byteAt bs (h ^^^ 0x42)

/-- 41_planar_sprite_codec.md R144: decode after encode, and what it does to a pixel's colour index. -/
def Obligations.PlanarDecodeAfterEncode : Prop :=
  ∀ (bs : List Byte), ∀ c ∈ [Category.sprite, Category.cdSprite], 0 < bs.length → bs.length % 128 = 0 →
    ∃ cs ds, transcode bs c .encode = .ok cs ∧ transcode cs c .decode = .ok ds ∧
      (∀ j < bs.length, byteAt ds j = rot2n (byteAt bs (j ^^^ 0x40))) ∧
      (∀ b : Byte, rot2n b = ((b >>> 2) &&& 0x33#8) ||| ((b &&& 0x33#8) <<< 2)) ∧
      (∀ b : Byte, ∀ k ∈ [0, 4], (rot2n b).extractLsb' k 4 = ((b.extractLsb' k 4) >>> 2) ||| ((b.extractLsb' k 4) <<< 2)) ∧
      ∀ c : Nibble, (c >>> 2) ||| (c <<< 2) = c ↔ c ∈ [0x0#4, 0x5#4, 0xA#4, 0xF#4]

/-- 41_planar_sprite_codec.md R145 (a): each composite applied twice is the identity; and neither composite is the identity, in either
category: on the ramp of the 128 bytes 0 to 127 it gives something else. -/
def Obligations.PlanarCompositesAreInvolutions : Prop :=
  ∀ c ∈ [Category.sprite, Category.cdSprite], ∀ d ∈ [Direction.encode, Direction.decode],
    ∀ d' ∈ [Direction.encode, Direction.decode], d ≠ d' →
    (∀ bs : List Byte, 0 < bs.length → bs.length % 128 = 0 →
      ∃ b1 b2 b3, transcode bs c d = .ok b1 ∧ transcode b1 c d' = .ok b2 ∧ transcode b2 c d = .ok b3 ∧
        transcode b3 c d' = .ok bs) ∧
    ∃ b1 b2, transcode ((List.range 128).map (BitVec.ofNat 8)) c d = .ok b1 ∧ transcode b1 c d' = .ok b2 ∧
      b2 ≠ (List.range 128).map (BitVec.ofNat 8)

/-- 40_fix_tile_codec.md R113, 41_planar_sprite_codec.md R146: each granule of the output (32 bytes for Fix, 4 for planar decode, 128 for
planar encode) is the transcoding of the same granule of the input alone. -/
def Obligations.GranulesAreIndependent : Prop :=
  ∀ (bs cs : List Byte) (c : Category) (d : Direction), transcode bs c d = .ok cs →
    ∀ u, (u + 1) * granule c d ≤ bs.length →
      transcode ((bs.drop (u * granule c d)).take (granule c d)) c d = .ok ((cs.drop (u * granule c d)).take (granule c d))

/-- 40_fix_tile_codec.md R112: the pixel (r, x) of a Fix unit, linear side and hardware side. -/
def Obligations.FixTilePixelsAreWhereTheyBelong : Prop :=
  ∀ (f : Nat → Byte) (u r x : Nat), r < 8 → x < 8 →
    (outByte .fix .decode f (32 * u + 4 * r + x / 2)).extractLsb' (if x % 2 = 0 then 4 else 0) 4 =
      (f (32 * u + 8 * column (x / 2) + (r ^^^ 1))).extractLsb' (if x % 2 = 0 then 0 else 4) 4 ∧
    (outByte .fix .encode f (32 * u + 8 * column (x / 2) + (r ^^^ 1))).extractLsb' (if x % 2 = 0 then 0 else 4) 4 =
      (f (32 * u + 4 * r + x / 2)).extractLsb' (if x % 2 = 0 then 4 else 0) 4

/-- 41_planar_sprite_codec.md R155: bit b of pixel q of a row; decode finds it at bit q of the byte that is plane b (planes 1, 0, 3, 2 at
offsets 0 to 3 of the same group), encode puts it at bit q of offset 3 - b of the group `xor 0x40`. -/
def Obligations.PlanarPixelsAreWhereTheyBelong : Prop :=
  ∀ (f : Nat → Byte), ∀ c ∈ [Category.sprite, Category.cdSprite], ∀ g q b, g % 4 = 0 → q < 8 → b < 4 →
    (outByte c .decode f (g + q / 2)).getLsbD ((if q % 2 = 0 then 4 else 0) + b) = (f (g + (b ^^^ 1))).getLsbD q ∧
    (outByte c .encode f ((g ^^^ 0x40) + (3 - b))).getLsbD q =
      (f (g + q / 2)).getLsbD ((if q % 2 = 0 then 4 else 0) + b)
end

