-- ==== Sys2Proof/Laws/Memory.lean ====
section
/-! SUPPORT. Buffers: reading after writing, and that every operation keeps the canonical form. -/

namespace Sys2Proof.Machine

@[simp] theorem Memory.read_nil (a : Nat) : Memory.read [] a = none := rfl

theorem Memory.read_cons (k : Nat) (v : Byte) (m : Memory) (a : Nat) :
    Memory.read ((k, v) :: m) a = if a = k then some v else Memory.read m a := rfl

/-- Reading after a write: the written cell holds the byte, every other cell what it held. -/
theorem Memory.read_write (m : Memory) (a : Nat) (b : Byte) (x : Nat) :
    Memory.read (Memory.write m a b) x = if x = a then some b else Memory.read m x := by
  induction m with
  | nil => simp [Memory.write, Memory.read_cons]
  | cons c m ih =>
    obtain ⟨k, v⟩ := c
    unfold Memory.write
    split
    · simp [Memory.read_cons]
    · split
      · subst_vars; simp [Memory.read_cons]; split <;> simp_all
      · next h1 h2 =>
        simp only [Memory.read_cons, ih]
        by_cases hk : x = k
        · subst hk; rw [if_pos rfl, if_neg (by omega), if_pos rfl]
        · simp [hk]

@[simp] theorem Memory.read_write_same (m : Memory) (a : Nat) (b : Byte) :
    Memory.read (Memory.write m a b) a = some b := by simp [Memory.read_write]

theorem Memory.read_write_other (m : Memory) {a x : Nat} (b : Byte) (h : x ≠ a) :
    Memory.read (Memory.write m a b) x = Memory.read m x := by simp [Memory.read_write, h]

/-- Every listed offset of `m` is above `k`. -/
def Memory.above (k : Nat) (m : Memory) : Prop := ∀ c ∈ m, k < c.1

/-- The canonical form, unfolded once: the head is below all that follows. -/
theorem Memory.wf_cons (k : Nat) (v : Byte) (m : Memory) :
    Memory.wf ((k, v) :: m) = true ↔ Memory.above k m ∧ Memory.wf m = true := by
  induction m generalizing k v with
  | nil => simp [Memory.wf, Memory.above]
  | cons c m ih =>
    obtain ⟨k', v'⟩ := c
    rw [Memory.wf]
    simp only [Bool.and_eq_true, decide_eq_true_eq]
    constructor
    · rintro ⟨hk, hm⟩
      refine ⟨?_, hm⟩
      intro c hc
      rcases List.mem_cons.1 hc with rfl | hc
      · exact hk
      · exact Nat.lt_trans hk (((ih k' v').1 hm).1 c hc)
    · rintro ⟨hk, hm⟩
      exact ⟨hk (k', v') (List.mem_cons_self ..), hm⟩

theorem Memory.above_write {k a : Nat} {m : Memory} (b : Byte) (hk : k < a) (hm : Memory.above k m) :
    Memory.above k (Memory.write m a b) := by
  induction m with
  | nil => intro c hc; simp [Memory.write] at hc; subst hc; exact hk
  | cons c m ih =>
    obtain ⟨k', v'⟩ := c
    have hk' : k < k' := hm (k', v') (List.mem_cons_self ..)
    have hm' : Memory.above k m := fun c hc => hm c (List.mem_cons_of_mem _ hc)
    intro c hc
    unfold Memory.write at hc
    split at hc
    · rcases List.mem_cons.1 hc with rfl | hc
      · exact hk
      · exact hm c hc
    · split at hc
      · rcases List.mem_cons.1 hc with rfl | hc
        · exact hk
        · exact hm' c hc
      · rcases List.mem_cons.1 hc with rfl | hc
        · exact hk'
        · exact ih hm' c hc

/-- A write keeps the canonical form. -/
theorem Memory.write_wf {m : Memory} (a : Nat) (b : Byte) (hm : Memory.wf m = true) :
    Memory.wf (Memory.write m a b) = true := by
  induction m with
  | nil => simp [Memory.write, Memory.wf]
  | cons c m ih =>
    obtain ⟨k, v⟩ := c
    have ⟨hk, hm'⟩ := (Memory.wf_cons k v m).1 hm
    unfold Memory.write
    split
    · next h =>
      refine (Memory.wf_cons ..).2 ⟨?_, hm⟩
      intro c hc
      rcases List.mem_cons.1 hc with rfl | hc
      · exact h
      · exact Nat.lt_trans h (hk c hc)
    · split
      · next h => subst h; exact (Memory.wf_cons ..).2 ⟨hk, hm'⟩
      · next h1 h2 =>
        exact (Memory.wf_cons ..).2 ⟨Memory.above_write b (by omega) hk, ih hm'⟩

/-- The input at reset, with no cell holding a value, is canonical. -/
theorem reset_inp_wf : Memory.wf State.reset.inp = true := rfl

/-- MemWrite keeps the canonical form. -/
theorem memWrite_wf {n a : Nat} {b : Byte} {e e' : Engine} (h : memWrite n a b e = .ok e') (hm : Memory.wf e.out = true) :
    Memory.wf e'.out = true := by
  unfold memWrite at h
  split at h
  · cases h; exact Memory.write_wf _ _ hm
  · cases h

/-- Writing consecutive cells keeps the canonical form. -/
theorem Memory.writeBytes_wf {m : Memory} (a : Nat) (bs : List Byte) (hm : Memory.wf m = true) :
    Memory.wf (Memory.writeBytes m a bs) = true := by
  induction bs generalizing m a with
  | nil => exact hm
  | cons b bs ih => exact ih (a + 1) (Memory.write_wf a b hm)

/-- Reading after writing consecutive cells. -/
theorem Memory.read_writeBytes (m : Memory) (a : Nat) (bs : List Byte) (x : Nat) :
    Memory.read (Memory.writeBytes m a bs) x =
      if a ≤ x ∧ x < a + bs.length then bs[x - a]? else Memory.read m x := by
  induction bs generalizing m a with
  | nil => simp [Memory.writeBytes]
  | cons b bs ih =>
    simp only [Memory.writeBytes, ih, Memory.read_write, List.length_cons]
    by_cases hx : x = a
    · subst hx; simp
    · by_cases h : a + 1 ≤ x ∧ x < a + 1 + bs.length
      · have e : x - a = (x - (a + 1)) + 1 := by omega
        rw [if_pos h, if_pos (by omega), e, List.getElem?_cons_succ]
      · rw [if_neg h, if_neg hx, if_neg (by omega)]

/-- A buffer in canonical form holds no cell at or below an offset all of it is above. -/
theorem Memory.read_eq_none_of_above {k a : Nat} {m : Memory} (hm : Memory.above k m) (h : a ≤ k) :
    Memory.read m a = none := by
  induction m with
  | nil => rfl
  | cons c m ih =>
    obtain ⟨k', v'⟩ := c
    have hk' : k < k' := hm (k', v') (List.mem_cons_self ..)
    rw [Memory.read_cons, if_neg (by omega)]
    exact ih fun c hc => hm c (List.mem_cons_of_mem _ hc)

/-- Canonical buffers that read the same at every offset are the same list. -/
theorem Memory.ext_of_wf {m m' : Memory} (hm : Memory.wf m = true) (hm' : Memory.wf m' = true)
    (h : ∀ a, Memory.read m a = Memory.read m' a) : m = m' := by
  induction m generalizing m' with
  | nil =>
    cases m' with
    | nil => rfl
    | cons c m' => have := h c.1; obtain ⟨k, v⟩ := c; simp [Memory.read_cons] at this
  | cons c m ih =>
    obtain ⟨k, v⟩ := c
    have ⟨ha, hw⟩ := (Memory.wf_cons k v m).1 hm
    cases m' with
    | nil => have := h k; simp [Memory.read_cons] at this
    | cons c' m' =>
      obtain ⟨k', v'⟩ := c'
      have ⟨ha', hw'⟩ := (Memory.wf_cons k' v' m').1 hm'
      have hk : k = k' := by
        have e1 := h k
        have e2 := h k'
        rcases Nat.lt_trichotomy k k' with hlt | heq | hgt
        · rw [Memory.read_cons, if_pos rfl, Memory.read_cons, if_neg (by omega),
            Memory.read_eq_none_of_above ha' (by omega)] at e1
          cases e1
        · exact heq
        · rw [Memory.read_cons, Memory.read_cons, if_pos rfl, if_neg (by omega),
            Memory.read_eq_none_of_above ha (by omega)] at e2
          cases e2
      subst hk
      have hv : v = v' := by have e := h k; simpa [Memory.read_cons] using e
      subst hv
      congr 1
      refine ih hw hw' fun a => ?_
      have e := h a
      rw [Memory.read_cons, Memory.read_cons] at e
      by_cases hak : a = k
      · subst hak
        rw [Memory.read_eq_none_of_above ha (Nat.le_refl _), Memory.read_eq_none_of_above ha' (Nat.le_refl _)]
      · simpa [hak] using e

/-! ### Covering, and the primitives -/

theorem Memory.covers_iff (m : Memory) (n : Nat) :
    Memory.covers m n = true ↔ ∀ a < n, (Memory.read m a).isSome = true := by
  simp [Memory.covers, List.all_eq_true]

/-- Below a covered length, a cell holds the byte `byteAt` names. -/
theorem Memory.read_of_covers {m : Memory} {n a : Nat} (h : Memory.covers m n = true) (ha : a < n) :
    Memory.read m a = some (Memory.byteAt m a) := by
  have hs := (Memory.covers_iff m n).1 h a ha
  unfold Memory.byteAt
  cases hr : Memory.read m a with
  | none => rw [hr] at hs; cases hs
  | some b => rfl

/-- MemRead inside a covered length. -/
theorem memRead_of_covers {m : Memory} {n a : Nat} (h : Memory.covers m n = true) (ha : a < n) :
    memRead m n a = .ok (Memory.byteAt m a) := by
  simp [memRead, ha, Memory.read_of_covers h ha]

/-- Everything MemRead can do. -/
theorem memRead_ok {m : Memory} {n a : Nat} {b : Byte} (h : memRead m n a = .ok b) :
    a < n ∧ Memory.read m a = some b := by
  unfold memRead at h
  split at h
  · next ha =>
    refine ⟨ha, ?_⟩
    split at h
    · next hr => cases h; exact hr
    · cases h
  · cases h

/-- MemWrite inside the buffer. -/
theorem memWrite_of_lt {n a : Nat} (b : Byte) (e : Engine) (ha : a < n) :
    memWrite n a b e = .ok { e with out := Memory.write e.out a b } := by simp [memWrite, ha]

/-- Everything MemWrite can do. -/
theorem memWrite_ok {n a : Nat} {b : Byte} {e e' : Engine} (h : memWrite n a b e = .ok e') :
    a < n ∧ e' = { e with out := Memory.write e.out a b } := by
  unfold memWrite at h
  split at h
  · next ha => cases h; exact ⟨ha, rfl⟩
  · cases h

/-- Taking the first `n` bytes of a buffer and reading one of them back. -/
theorem byteAt_take {m : Memory} {n a : Nat} (ha : a < n) :
    byteAt (Memory.take m n) a = Memory.byteAt m a := by
  simp [byteAt, Memory.take, List.getD_eq_getElem?_getD, ha]

@[simp] theorem Memory.take_length (m : Memory) (n : Nat) : (Memory.take m n).length = n := by simp [Memory.take]

end Sys2Proof.Machine
end

