-- ==== Sys2Proof/Laws/Datapath.lean ====
section
/-! SUPPORT. The datapath bit by bit: the shift registers of the demultiplexer and the multiplexer against the closed forms. -/

namespace Sys2Proof.Machine

/-- Bit `b` of the colour index is bit `8b` of WORD (41_planar_sprite_codec.md R131). -/
theorem colorIndex_getLsbD (w : Word) {b : Nat} (hb : b < 4) : (colorIndex w).getLsbD b = w.getLsbD (8 * b) := by
  unfold colorIndex
  interval_cases b <;> simp 

/-- The byte lanes of WORD (41_planar_sprite_codec.md R130). -/
theorem assembleWord_lane (h0 h1 h2 h3 : Byte) {b q : Nat} (hb : b < 4) (hq : q < 8) :
    (assembleWord h0 h1 h2 h3).getLsbD (8 * b + q) = (pick4 h1 h0 h3 h2 b).getLsbD q := by
  unfold assembleWord pick4
  interval_cases b <;> simp <;> interval_cases q <;> simp

theorem bitOf_getElem (v : Byte) (q : Nat) {b : Nat} (hb : b < 4) : (bitOf v q)[b] = (decide (b = 0) && v.getLsbD q) := by
  unfold bitOf
  rcases b with _ | b <;> simp

/-- Bit `b` of a pixel of a hardware group comes from the byte that is plane `b` (41_planar_sprite_codec.md R133). -/
theorem decPix_getLsbD (h0 h1 h2 h3 : Byte) {b q : Nat} (hb : b < 4) :
    (decPix h0 h1 h2 h3 q).getLsbD b = (pick4 h1 h0 h3 h2 b).getLsbD q := by
  unfold decPix pick4
  interval_cases b <;> simp [bitOf_getElem]

/-- After `q` shifts the extraction gives pixel `q` of the group (41_planar_sprite_codec.md R132, R133). -/
theorem colorIndex_assembleWord (h0 h1 h2 h3 : Byte) {q : Nat} (hq : q < 8) :
    colorIndex (assembleWord h0 h1 h2 h3 >>> q) = decPix h0 h1 h2 h3 q := by
  refine BitVec.eq_of_getLsbD_eq fun b hb => ?_
  rw [colorIndex_getLsbD _ hb, BitVec.getLsbD_ushiftRight, Nat.add_comm, assembleWord_lane _ _ _ _ hb hq,
    decPix_getLsbD _ _ _ _ hb]

/-- Everything the eight pixel steps of a group do (41_planar_sprite_codec.md R132, R133). -/
theorem pixelSteps_eight (n g : Nat) (e : Engine) (h0 h1 h2 h3 : Byte) (hg : g + 3 < n)
    (hw : e.regs.word = assembleWord h0 h1 h2 h3) (hp : e.regs.p = 0) :
    pixelSteps n g 8 e = .ok
      { regs := { e.regs with
          word := assembleWord h0 h1 h2 h3 >>> 8
          hnib := holdHighNibble (decPix h0 h1 h2 h3 6) }
        out := Memory.write (Memory.write (Memory.write (Memory.write e.out g (sprDecUnit h0 h1 h2 h3 0)) (g + 1)
          (sprDecUnit h0 h1 h2 h3 1)) (g + 2) (sprDecUnit h0 h1 h2 h3 2)) (g + 3) (sprDecUnit h0 h1 h2 h3 3) } := by
  obtain ⟨⟨i, w, hn, ix, mk, bt, p, bp⟩, out⟩ := e
  simp only at hw hp
  subst hw hp
  have c : ∀ q < 8, colorIndex (assembleWord h0 h1 h2 h3 >>> q) = decPix h0 h1 h2 h3 q :=
    fun q hq => colorIndex_assembleWord _ _ _ _ hq
  have c0 := c 0 (by decide)
  rw [BitVec.ushiftRight_zero] at c0
  simp [pixelSteps, pixelStep, nextPixel, memWrite, bind, Except.bind, c0, c, ← BitVec.shiftRight_add,
    show g < n by omega, show g + 1 < n by omega, show g + 2 < n by omega, hg]
  simp [sprDecUnit, packPair, holdHighNibble]

/-- Testing a single bit of a word. -/
theorem and_shifted_one (x : Word) (m : Nat) : x &&& (1#32 <<< m) ≠ 0 ↔ x.getLsbD m = true := by
  have h : (1#32 <<< m) = BitVec.twoPow 32 m := by simp [BitVec.twoPow]
  rw [h, BitVec.and_twoPow]
  by_cases hm : m < 32
  · split
    · next hx =>
      simp only [hx, iff_true]
      intro h0
      have := congrArg (fun v => v.getLsbD m) h0
      simp [hm] at this
    · next hx => simp [hx]
  · have : x.getLsbD m = false := BitVec.getLsbD_of_ge x m (by omega)
    simp [this]

/-- `k` pixels of a lane whose MASK is the single bit `m`. -/
theorem laneSteps_spec (k m : Nat) (r : Regs) (hm : r.mask = 1#32 <<< m) :
    laneSteps k r = { r with
      bitplane := (laneSteps k r).bitplane, mask := 1#32 <<< (m + 4 * k), p := r.p + BitVec.ofNat 3 k } ∧
    ∀ q < 8, (laneSteps k r).bitplane.getLsbD q =
      if q < k then r.indexes.getLsbD (m + 4 * (k - 1 - q)) else r.bitplane.getLsbD (q - k) := by
  induction k generalizing m r with
  | zero =>
    constructor
    · obtain ⟨i, w, hn, ix, mk, bt, p, bp⟩ := r
      simp [laneSteps] at hm ⊢; exact hm
    · intro q _; simp [laneSteps]
  | succ k ih =>
    have hm' : (laneStep r).mask = 1#32 <<< (m + 4) := by
      simp [laneStep, hm, BitVec.shiftLeft_add]
    obtain ⟨h1, h2⟩ := ih (m + 4) (laneStep r) hm'
    constructor
    · have e : laneSteps (k + 1) r = laneSteps k (laneStep r) := rfl
      rw [e, h1]
      have e1 : m + 4 + 4 * k = m + 4 * (k + 1) := by omega
      have e2 : r.p + 1#3 + BitVec.ofNat 3 k = r.p + BitVec.ofNat 3 (k + 1) := by
        rw [BitVec.add_assoc, Nat.add_comm k 1, BitVec.ofNat_add]
      simp [laneStep, e1, e2]
    · intro q hq
      have e : laneSteps (k + 1) r = laneSteps k (laneStep r) := rfl
      rw [e, h2 q hq]
      have hbit : ∀ j, (laneStep r).bitplane.getLsbD j =
          if j = 0 then r.indexes.getLsbD m else (decide (j < 8) && r.bitplane.getLsbD (j - 1)) := by
        intro j
        simp only [laneStep, hm]
        rw [BitVec.getLsbD_or]
        by_cases hx : r.indexes &&& 1#32 <<< m ≠ 0
        · rw [if_pos hx]
          have := (and_shifted_one _ _).1 hx
          by_cases hj : j = 0
          · subst hj; simp [this]
          · rcases j with _ | j
            · exact absurd rfl hj
            · simp 
        · rw [if_neg hx]
          have : r.indexes.getLsbD m = false := by
            cases hb : r.indexes.getLsbD m
            · rfl
            · exact absurd ((and_shifted_one _ _).2 hb) hx
          by_cases hj : j = 0
          · subst hj; simp [this]
          · rcases j with _ | j
            · exact absurd rfl hj
            · simp
      have hix : (laneStep r).indexes = r.indexes := rfl
      rw [hbit, hix]
      by_cases h : q < k
      · rw [if_pos h, if_pos (by omega), show m + 4 + 4 * (k - 1 - q) = m + 4 * (k + 1 - 1 - q) by omega]
      · rw [if_neg h]
        by_cases hqk : q = k
        · subst hqk; simp
        · rw [if_neg (by omega), if_neg (by omega), show q - k - 1 = q - (k + 1) by omega]
          simp; omega

/-- One term of a plane is one bit. -/
theorem planeBit_getLsbD (c : Nibble) {b q r : Nat} (hb : b < 4) (hr : r < 8) :
    (planeBit c b q).getLsbD r = (decide (r = q) && c.getLsbD b) := by
  unfold planeBit
  by_cases h : r = q
  · subst h; interval_cases b <;> simp [hr]
  · by_cases hrq : r < q
    · simp [hrq, h]
    · have : r - q ≠ 0 := by omega
      obtain ⟨k, hk⟩ := Nat.exists_eq_succ_of_ne_zero this
      simp [hk, h]

/-- Bit `q` of a plane is its bit of pixel `q` (41_planar_sprite_codec.md R139). -/
theorem plane_getLsbD (l0 l1 l2 l3 : Byte) {b q : Nat} (hb : b < 4) (hq : q < 8) :
    (plane l0 l1 l2 l3 b).getLsbD q = (encPix l0 l1 l2 l3 q).getLsbD b := by
  unfold plane
  rw [show List.range 8 = [0, 1, 2, 3, 4, 5, 6, 7] by decide]
  simp only [List.foldl_cons, List.foldl_nil, BitVec.getLsbD_or, planeBit_getLsbD _ hb hq]
  interval_cases q <;> simp

/-- A pixel of a linear group is a nibble of one of its bytes (41_planar_sprite_codec.md R139). -/
theorem encPix_getLsbD (l0 l1 l2 l3 : Byte) {b q : Nat} (hb : b < 4) :
    (encPix l0 l1 l2 l3 q).getLsbD b =
      (pick4 l0 l1 l2 l3 (q / 2)).getLsbD (if q % 2 = 0 then 4 + b else b) := by
  unfold encPix
  split
  · interval_cases b <;> simp
  · interval_cases b <;> simp

/-- The bits of INDEXES after an accumulation step (41_planar_sprite_codec.md R136). -/
theorem accumulate_getLsbD (x : Word) (b : Byte) {j r : Nat} (hj : j < 4) (hr : r < 8) :
    (accumulate x b).getLsbD (8 * j + r) = if j = 0 then b.getLsbD r else x.getLsbD (8 * (j - 1) + r) := by
  unfold accumulate
  by_cases h : j = 0
  · subst h; simp [hr]; omega
  · have e : 8 * j + r - 8 = 8 * (j - 1) + r := by omega
    have hb : b.getLsbD (8 * j + r) = false := BitVec.getLsbD_of_ge b _ (by omega)
    simp [h, hb, e]; omega

/-- INDEXES holds the four bytes of a group, the first most significant. -/
def HoldsGroup (indexes : Word) (l0 l1 l2 l3 : Byte) : Prop :=
  ∀ j < 4, (indexes >>> (8 * j)).setWidth 8 = pick4 l3 l2 l1 l0 j

theorem HoldsGroup.getLsbD {x : Word} {l0 l1 l2 l3 : Byte} (h : HoldsGroup x l0 l1 l2 l3) {j r : Nat} (hj : j < 4)
    (hr : r < 8) : x.getLsbD (8 * j + r) = (pick4 l3 l2 l1 l0 j).getLsbD r := by
  have := congrArg (fun v => v.getLsbD r) (h j hj)
  simpa [hr] using this

/-- Four accumulation steps leave the four bytes, whatever was there before (10_state.md R33). -/
theorem holdsGroup_accumulate (x : Word) (l0 l1 l2 l3 : Byte) :
    HoldsGroup (accumulate (accumulate (accumulate (accumulate x l0) l1) l2) l3) l0 l1 l2 l3 := by
  intro j hj
  refine BitVec.eq_of_getLsbD_eq fun r hr => ?_
  rw [BitVec.getLsbD_setWidth, BitVec.getLsbD_ushiftRight]
  simp only [hr, decide_true, Bool.true_and]
  interval_cases j
  · rw [accumulate_getLsbD _ _ (by decide) hr]; rfl
  · rw [accumulate_getLsbD _ _ (by decide) hr, if_neg (by decide), accumulate_getLsbD _ _ (by decide) hr]; rfl
  · rw [accumulate_getLsbD _ _ (by decide) hr, if_neg (by decide), accumulate_getLsbD _ _ (by decide) hr,
      if_neg (by decide), accumulate_getLsbD _ _ (by decide) hr]; rfl
  · rw [accumulate_getLsbD _ _ (by decide) hr, if_neg (by decide), accumulate_getLsbD _ _ (by decide) hr,
      if_neg (by decide), accumulate_getLsbD _ _ (by decide) hr, if_neg (by decide),
      accumulate_getLsbD _ _ (by decide) hr]; rfl

/-- Everything a lane does, once INDEXES holds the group (41_planar_sprite_codec.md R138, R139). -/
theorem laneLoop_spec (bp : BitVec 2) (r : Regs) {l0 l1 l2 l3 : Byte} (h : HoldsGroup r.indexes l0 l1 l2 l3) :
    laneLoop bp r =
      { r with bp := bp, mask := (laneLoop bp r).mask, bitplane := sprEncUnit l0 l1 l2 l3 bp.toNat, p := 0 } := by
  have hbp : bp.toNat < 4 := bp.isLt
  have hm : (laneStart bp r).mask = 1#32 <<< (3 - bp.toNat) := by
    have : ∀ bp : BitVec 2, (tableAt bitplaneMask bp.toNat).setWidth 32 = 1#32 <<< (3 - bp.toNat) := by decide
    exact this bp
  obtain ⟨h1, h2⟩ := laneSteps_spec 8 (3 - bp.toNat) (laneStart bp r) hm
  have hb : (laneLoop bp r).bitplane = sprEncUnit l0 l1 l2 l3 bp.toNat := by
    refine BitVec.eq_of_getLsbD_eq fun q hq => ?_
    rw [sprEncUnit, plane_getLsbD _ _ _ _ (by omega) hq, encPix_getLsbD _ _ _ _ (by omega)]
    have := h2 q hq
    rw [if_pos hq] at this
    rw [laneLoop, this]
    have hx : (laneStart bp r).indexes = r.indexes := rfl
    rw [hx]
    have e : 3 - bp.toNat + 4 * (8 - 1 - q) =
        8 * (3 - q / 2) + (if q % 2 = 0 then 4 + (3 - bp.toNat) else 3 - bp.toNat) := by
      split <;> omega
    rw [e, h.getLsbD (by omega) (by split <;> omega)]
    congr 1
    interval_cases q <;> rfl
  rw [← hb]
  have e : laneLoop bp r = laneSteps 8 (laneStart bp r) := rfl
  rw [e, h1]
  simp [laneStart]

end Sys2Proof.Machine
end

