-- ==== Sys2Proof/Laws/Index.lean ====
section
/-! SUPPORT. The effective offsets: each is "the base of the span plus a function of the offset within it", so that a statement
about every offset comes down to a finite table. -/

namespace Sys2Proof.Machine

theorem clearLow_eq (k x : Nat) : clearLow k x = 2 ^ k * (x / 2 ^ k) := by
  rw [clearLow, Nat.shiftRight_eq_div_pow, Nat.shiftLeft_eq, Nat.mul_comm]

theorem and_three (x : Nat) : x &&& 3 = x % 4 := Nat.and_two_pow_sub_one_eq_mod x 2

theorem and_seven (x : Nat) : x &&& 7 = x % 8 := Nat.and_two_pow_sub_one_eq_mod x 3

/-- `xor` with a constant below the span stays in the span. -/
theorem xor_in_span (k u : Nat) {j c : Nat} (hj : j < 2 ^ k) (hc : c < 2 ^ k) :
    (2 ^ k * u + j) ^^^ c = 2 ^ k * u + (j ^^^ c) := by
  have hd : ((2 ^ k * u + j) ^^^ c) / 2 ^ k = u := by
    rw [Nat.xor_div_two_pow, Nat.div_eq_of_lt hc, Nat.xor_zero, Nat.mul_add_div (Nat.two_pow_pos k),
      Nat.div_eq_of_lt hj, Nat.add_zero]
  have hm : ((2 ^ k * u + j) ^^^ c) % 2 ^ k = j ^^^ c := by
    rw [Nat.xor_mod_two_pow, Nat.mod_eq_of_lt hc, Nat.mul_add_mod, Nat.mod_eq_of_lt hj]
  have := Nat.div_add_mod ((2 ^ k * u + j) ^^^ c) (2 ^ k)
  rw [hd, hm] at this
  exact this.symm

theorem column_and_three (k : Nat) : column (k &&& 3) = column (k % 4) := by rw [and_three]

/-- The decode index function, unit by unit. -/
theorem decSrc_unit (u : Nat) {j : Nat} (hj : j < 32) : decSrc (32 * u + j) = 32 * u + decSrc j := by
  unfold decSrc
  rw [clearLow_eq, clearLow_eq, and_three, and_three, and_seven, and_seven, Nat.shiftRight_eq_div_pow,
    Nat.shiftRight_eq_div_pow]
  have h1 : (32 * u + j) / 2 ^ 5 = u := by omega
  have h2 : j / 2 ^ 5 = 0 := by omega
  have h3 : (32 * u + j) % 4 = j % 4 := by omega
  have h4 : (32 * u + j) / 2 ^ 2 % 8 = j / 2 ^ 2 % 8 := by omega
  rw [h1, h2, h3, h4]
  omega

/-- The encode read index function, unit by unit. -/
theorem encSrc_unit (u : Nat) {j : Nat} (hj : j < 32) : encSrc (32 * u + j) = 32 * u + encSrc j := by
  unfold encSrc
  rw [clearLow_eq, clearLow_eq, and_three, and_three, and_seven, and_seven, Nat.shiftRight_eq_div_pow,
    Nat.shiftRight_eq_div_pow]
  have h1 : (32 * u + j) / 2 ^ 5 = u := by omega
  have h2 : j / 2 ^ 5 = 0 := by omega
  have h3 : (32 * u + j) % 8 = j % 8 := by omega
  have h4 : (32 * u + j) / 2 ^ 3 % 4 = j / 2 ^ 3 % 4 := by omega
  rw [h1, h2, h3, h4]
  omega

/-- The encode index function by the byte written, unit by unit. -/
theorem encOf_unit (u : Nat) {j : Nat} (hj : j < 32) : encOf (32 * u + j) = 32 * u + encOf j := by
  unfold encOf
  rw [clearLow_eq, clearLow_eq, and_three, and_three, and_seven, and_seven, Nat.shiftRight_eq_div_pow,
    Nat.shiftRight_eq_div_pow]
  have h1 : (32 * u + j) / 2 ^ 5 = u := by omega
  have h2 : j / 2 ^ 5 = 0 := by omega
  have h3 : (32 * u + j) % 8 = j % 8 := by omega
  have h4 : (32 * u + j) / 2 ^ 3 % 4 = j / 2 ^ 3 % 4 := by omega
  rw [h1, h2, h3, h4]
  omega

/-- The encode write index function, unit by unit. -/
theorem encDst_unit (u : Nat) {j : Nat} (hj : j < 32) : encDst (32 * u + j) = 32 * u + encDst j :=
  xor_in_span 5 u hj (by decide)

/-- The four index functions within one unit: in the unit. -/
theorem fix_index_lt_unit {j : Nat} (hj : j < 32) :
    decSrc j < 32 ∧ encSrc j < 32 ∧ encOf j < 32 ∧ encDst j < 32 := by
  revert j; decide

/-- An offset below a length that is a multiple of the span stays below it within its span. -/
theorem span_lt {n k u j : Nat} (hn : n % k = 0) (h : k * u < n) (hj : j < k) : k * u + j < n := by
  obtain ⟨m, rfl⟩ := Nat.dvd_of_mod_eq_zero hn
  have hk : 0 < k := by omega
  have hu : u + 1 ≤ m := Nat.lt_of_mul_lt_mul_left h
  have := Nat.mul_le_mul_left k hu
  rw [Nat.mul_add, Nat.mul_one] at this
  omega

theorem decSrc_lt {n i : Nat} (hn : n % 32 = 0) (hi : i < n) : decSrc i < n := by
  have e : i = 32 * (i / 32) + i % 32 := (Nat.div_add_mod i 32).symm
  have hj : i % 32 < 32 := Nat.mod_lt _ (by decide)
  rw [e, decSrc_unit _ hj]
  exact span_lt hn (by omega) (fix_index_lt_unit hj).1

theorem encSrc_lt {n i : Nat} (hn : n % 32 = 0) (hi : i < n) : encSrc i < n := by
  have e : i = 32 * (i / 32) + i % 32 := (Nat.div_add_mod i 32).symm
  have hj : i % 32 < 32 := Nat.mod_lt _ (by decide)
  rw [e, encSrc_unit _ hj]
  exact span_lt hn (by omega) (fix_index_lt_unit hj).2.1

theorem encOf_lt {n i : Nat} (hn : n % 32 = 0) (hi : i < n) : encOf i < n := by
  have e : i = 32 * (i / 32) + i % 32 := (Nat.div_add_mod i 32).symm
  have hj : i % 32 < 32 := Nat.mod_lt _ (by decide)
  rw [e, encOf_unit _ hj]
  exact span_lt hn (by omega) (fix_index_lt_unit hj).2.2.1

theorem encDst_lt {n i : Nat} (hn : n % 32 = 0) (hi : i < n) : encDst i < n := by
  have e : i = 32 * (i / 32) + i % 32 := (Nat.div_add_mod i 32).symm
  have hj : i % 32 < 32 := Nat.mod_lt _ (by decide)
  rw [e, encDst_unit _ hj]
  exact span_lt hn (by omega) (fix_index_lt_unit hj).2.2.2

/-- `^ 1` is its own inverse. -/
@[simp] theorem encDst_encDst (i : Nat) : encDst (encDst i) = i := by
  unfold encDst; rw [Nat.xor_assoc, Nat.xor_self, Nat.xor_zero]

/-- The group base `xor 0x40`, block by block. -/
theorem xor_destXor_block (m : Nat) {j : Nat} (hj : j < 128) : (128 * m + j) ^^^ destXor = 128 * m + (j ^^^ 64) :=
  xor_in_span 7 m hj (by decide)

theorem xor_destXor_lt {n g : Nat} (hn : n % 128 = 0) (hg : g < n) (h4 : g % 4 = 0) : (g ^^^ destXor) + 3 < n := by
  have e : g = 128 * (g / 128) + g % 128 := (Nat.div_add_mod g 128).symm
  have hj : g % 128 < 128 := Nat.mod_lt _ (by decide)
  have h4' : g % 128 % 4 = 0 := by omega
  have key : ∀ j < 128, j % 4 = 0 → (j ^^^ 64) + 3 < 128 := by decide
  rw [e, xor_destXor_block _ hj, Nat.add_assoc]
  exact span_lt hn (by omega) (key _ hj h4')

theorem xor_destXor_self (g : Nat) : (g ^^^ destXor) ^^^ destXor = g := by
  rw [Nat.xor_assoc, Nat.xor_self, Nat.xor_zero]

theorem xor_destXor_mod_four {g : Nat} (h4 : g % 4 = 0) : (g ^^^ destXor) % 4 = 0 := by
  have := Nat.xor_mod_two_pow (a := g) (b := destXor) (n := 2)
  simp only [Nat.reducePow] at this
  rw [this, h4]; rfl

/-- Where the lanes of planar encode go, lane by lane (41_planar_sprite_codec.md R140). -/
theorem encPlace_eq (g : Nat) {bp : Nat} (h : bp < 4) : encPlace g bp = (g ^^^ destXor) + bp := by
  have : ∀ bp < 4, (tableAt encLaneOrder bp).toNat = bp := by decide
  rw [encPlace, this bp h]

end Sys2Proof.Machine
end

