-- ==== Sys2Proof/Laws/State.lean ====
section
/-! SUPPORT. One lemma per field per update of the state, so that no proof unfolds a record update; and the fields after
completion and after a host reset. -/

namespace Sys2Proof.Machine

/-! ### State.setStatus -/

@[simp] theorem State.setStatus_inp (s : State) (p : Phase) (e : Err) : (s.setStatus p e).inp = s.inp := rfl
@[simp] theorem State.setStatus_out (s : State) (p : Phase) (e : Err) : (s.setStatus p e).out = s.out := rfl
@[simp] theorem State.setStatus_len (s : State) (p : Phase) (e : Err) : (s.setStatus p e).len = s.len := rfl
@[simp] theorem State.setStatus_cmd (s : State) (p : Phase) (e : Err) : (s.setStatus p e).cmd = s.cmd := rfl
@[simp] theorem State.setStatus_phase (s : State) (p : Phase) (e : Err) : (s.setStatus p e).phase = p := rfl
@[simp] theorem State.setStatus_err (s : State) (p : Phase) (e : Err) : (s.setStatus p e).err = e := rfl
@[simp] theorem State.setStatus_latch (s : State) (p : Phase) (e : Err) : (s.setStatus p e).latch = s.latch := rfl
@[simp] theorem State.setStatus_regs (s : State) (p : Phase) (e : Err) : (s.setStatus p e).regs = s.regs := rfl
@[simp] theorem State.setStatus_failures (s : State) (p : Phase) (e : Err) : (s.setStatus p e).failures = s.failures := rfl
@[simp] theorem State.setStatus_pending (s : State) (p : Phase) (e : Err) : (s.setStatus p e).pending = s.pending := rfl
@[simp] theorem State.setStatus_watch (s : State) (p : Phase) (e : Err) : (s.setStatus p e).watch = s.watch := rfl
@[simp] theorem State.setStatus_seen (s : State) (p : Phase) (e : Err) : (s.setStatus p e).seen = s.seen := rfl

/-! ### State.setOut -/

@[simp] theorem State.setOut_inp (s : State) (o : Option Memory) : (s.setOut o).inp = s.inp := rfl
@[simp] theorem State.setOut_out (s : State) (o : Option Memory) : (s.setOut o).out = o := rfl
@[simp] theorem State.setOut_len (s : State) (o : Option Memory) : (s.setOut o).len = s.len := rfl
@[simp] theorem State.setOut_cmd (s : State) (o : Option Memory) : (s.setOut o).cmd = s.cmd := rfl
@[simp] theorem State.setOut_phase (s : State) (o : Option Memory) : (s.setOut o).phase = s.phase := rfl
@[simp] theorem State.setOut_err (s : State) (o : Option Memory) : (s.setOut o).err = s.err := rfl
@[simp] theorem State.setOut_latch (s : State) (o : Option Memory) : (s.setOut o).latch = s.latch := rfl
@[simp] theorem State.setOut_regs (s : State) (o : Option Memory) : (s.setOut o).regs = s.regs := rfl
@[simp] theorem State.setOut_failures (s : State) (o : Option Memory) : (s.setOut o).failures = s.failures := rfl
@[simp] theorem State.setOut_pending (s : State) (o : Option Memory) : (s.setOut o).pending = s.pending := rfl
@[simp] theorem State.setOut_watch (s : State) (o : Option Memory) : (s.setOut o).watch = s.watch := rfl
@[simp] theorem State.setOut_seen (s : State) (o : Option Memory) : (s.setOut o).seen = s.seen := rfl

/-! ### State.setInp -/

@[simp] theorem State.setInp_inp (s : State) (m : Memory) : (s.setInp m).inp = m := rfl
@[simp] theorem State.setInp_out (s : State) (m : Memory) : (s.setInp m).out = s.out := rfl
@[simp] theorem State.setInp_len (s : State) (m : Memory) : (s.setInp m).len = s.len := rfl
@[simp] theorem State.setInp_cmd (s : State) (m : Memory) : (s.setInp m).cmd = s.cmd := rfl
@[simp] theorem State.setInp_phase (s : State) (m : Memory) : (s.setInp m).phase = s.phase := rfl
@[simp] theorem State.setInp_err (s : State) (m : Memory) : (s.setInp m).err = s.err := rfl
@[simp] theorem State.setInp_latch (s : State) (m : Memory) : (s.setInp m).latch = s.latch := rfl
@[simp] theorem State.setInp_regs (s : State) (m : Memory) : (s.setInp m).regs = s.regs := rfl
@[simp] theorem State.setInp_failures (s : State) (m : Memory) : (s.setInp m).failures = s.failures := rfl
@[simp] theorem State.setInp_pending (s : State) (m : Memory) : (s.setInp m).pending = s.pending := rfl
@[simp] theorem State.setInp_watch (s : State) (m : Memory) : (s.setInp m).watch = s.watch := rfl
@[simp] theorem State.setInp_seen (s : State) (m : Memory) : (s.setInp m).seen = s.seen := rfl

/-! ### State.setLen -/

@[simp] theorem State.setLen_inp (s : State) (n : Nat) : (s.setLen n).inp = s.inp := rfl
@[simp] theorem State.setLen_out (s : State) (n : Nat) : (s.setLen n).out = s.out := rfl
@[simp] theorem State.setLen_len (s : State) (n : Nat) : (s.setLen n).len = n := rfl
@[simp] theorem State.setLen_cmd (s : State) (n : Nat) : (s.setLen n).cmd = s.cmd := rfl
@[simp] theorem State.setLen_phase (s : State) (n : Nat) : (s.setLen n).phase = s.phase := rfl
@[simp] theorem State.setLen_err (s : State) (n : Nat) : (s.setLen n).err = s.err := rfl
@[simp] theorem State.setLen_latch (s : State) (n : Nat) : (s.setLen n).latch = s.latch := rfl
@[simp] theorem State.setLen_regs (s : State) (n : Nat) : (s.setLen n).regs = s.regs := rfl
@[simp] theorem State.setLen_failures (s : State) (n : Nat) : (s.setLen n).failures = s.failures := rfl
@[simp] theorem State.setLen_pending (s : State) (n : Nat) : (s.setLen n).pending = s.pending := rfl
@[simp] theorem State.setLen_watch (s : State) (n : Nat) : (s.setLen n).watch = s.watch := rfl
@[simp] theorem State.setLen_seen (s : State) (n : Nat) : (s.setLen n).seen = s.seen := rfl

/-! ### State.setCmd -/

@[simp] theorem State.setCmd_inp (s : State) (w : Byte) : (s.setCmd w).inp = s.inp := rfl
@[simp] theorem State.setCmd_out (s : State) (w : Byte) : (s.setCmd w).out = s.out := rfl
@[simp] theorem State.setCmd_len (s : State) (w : Byte) : (s.setCmd w).len = s.len := rfl
@[simp] theorem State.setCmd_cmd (s : State) (w : Byte) : (s.setCmd w).cmd = some w := rfl
@[simp] theorem State.setCmd_phase (s : State) (w : Byte) : (s.setCmd w).phase = s.phase := rfl
@[simp] theorem State.setCmd_err (s : State) (w : Byte) : (s.setCmd w).err = s.err := rfl
@[simp] theorem State.setCmd_latch (s : State) (w : Byte) : (s.setCmd w).latch = s.latch := rfl
@[simp] theorem State.setCmd_regs (s : State) (w : Byte) : (s.setCmd w).regs = s.regs := rfl
@[simp] theorem State.setCmd_failures (s : State) (w : Byte) : (s.setCmd w).failures = s.failures := rfl
@[simp] theorem State.setCmd_pending (s : State) (w : Byte) : (s.setCmd w).pending = s.pending := rfl
@[simp] theorem State.setCmd_watch (s : State) (w : Byte) : (s.setCmd w).watch = s.watch := rfl
@[simp] theorem State.setCmd_seen (s : State) (w : Byte) : (s.setCmd w).seen = s.seen := rfl

/-! ### State.setRegs -/

@[simp] theorem State.setRegs_inp (s : State) (r : Regs) : (s.setRegs r).inp = s.inp := rfl
@[simp] theorem State.setRegs_out (s : State) (r : Regs) : (s.setRegs r).out = s.out := rfl
@[simp] theorem State.setRegs_len (s : State) (r : Regs) : (s.setRegs r).len = s.len := rfl
@[simp] theorem State.setRegs_cmd (s : State) (r : Regs) : (s.setRegs r).cmd = s.cmd := rfl
@[simp] theorem State.setRegs_phase (s : State) (r : Regs) : (s.setRegs r).phase = s.phase := rfl
@[simp] theorem State.setRegs_err (s : State) (r : Regs) : (s.setRegs r).err = s.err := rfl
@[simp] theorem State.setRegs_latch (s : State) (r : Regs) : (s.setRegs r).latch = s.latch := rfl
@[simp] theorem State.setRegs_regs (s : State) (r : Regs) : (s.setRegs r).regs = r := rfl
@[simp] theorem State.setRegs_failures (s : State) (r : Regs) : (s.setRegs r).failures = s.failures := rfl
@[simp] theorem State.setRegs_pending (s : State) (r : Regs) : (s.setRegs r).pending = s.pending := rfl
@[simp] theorem State.setRegs_watch (s : State) (r : Regs) : (s.setRegs r).watch = s.watch := rfl
@[simp] theorem State.setRegs_seen (s : State) (r : Regs) : (s.setRegs r).seen = s.seen := rfl

/-! ### State.latchCommand -/

@[simp] theorem State.latchCommand_inp (s : State) : s.latchCommand.inp = s.inp := rfl
@[simp] theorem State.latchCommand_out (s : State) : s.latchCommand.out = s.out := rfl
@[simp] theorem State.latchCommand_len (s : State) : s.latchCommand.len = s.len := rfl
@[simp] theorem State.latchCommand_cmd (s : State) : s.latchCommand.cmd = s.cmd := rfl
@[simp] theorem State.latchCommand_phase (s : State) : s.latchCommand.phase = s.phase := rfl
@[simp] theorem State.latchCommand_err (s : State) : s.latchCommand.err = s.err := rfl
@[simp] theorem State.latchCommand_latch (s : State) : s.latchCommand.latch = { cmd := s.cmd, len := s.len } := rfl
@[simp] theorem State.latchCommand_regs (s : State) : s.latchCommand.regs = s.regs := rfl
@[simp] theorem State.latchCommand_failures (s : State) : s.latchCommand.failures = s.failures := rfl
@[simp] theorem State.latchCommand_pending (s : State) : s.latchCommand.pending = s.pending := rfl
@[simp] theorem State.latchCommand_watch (s : State) : s.latchCommand.watch = s.watch := rfl
@[simp] theorem State.latchCommand_seen (s : State) : s.latchCommand.seen = s.seen := rfl

/-! ### State.recordFailure -/

@[simp] theorem State.recordFailure_inp (s : State) (e : Err) : (s.recordFailure e).inp = s.inp := rfl
@[simp] theorem State.recordFailure_out (s : State) (e : Err) : (s.recordFailure e).out = s.out := rfl
@[simp] theorem State.recordFailure_len (s : State) (e : Err) : (s.recordFailure e).len = s.len := rfl
@[simp] theorem State.recordFailure_cmd (s : State) (e : Err) : (s.recordFailure e).cmd = s.cmd := rfl
@[simp] theorem State.recordFailure_phase (s : State) (e : Err) : (s.recordFailure e).phase = s.phase := rfl
@[simp] theorem State.recordFailure_err (s : State) (e : Err) : (s.recordFailure e).err = s.err := rfl
@[simp] theorem State.recordFailure_latch (s : State) (e : Err) : (s.recordFailure e).latch = s.latch := rfl
@[simp] theorem State.recordFailure_regs (s : State) (e : Err) : (s.recordFailure e).regs = s.regs := rfl
@[simp] theorem State.recordFailure_failures (s : State) (e : Err) : (s.recordFailure e).failures = e :: s.failures := rfl
@[simp] theorem State.recordFailure_pending (s : State) (e : Err) : (s.recordFailure e).pending = s.pending := rfl
@[simp] theorem State.recordFailure_watch (s : State) (e : Err) : (s.recordFailure e).watch = s.watch := rfl
@[simp] theorem State.recordFailure_seen (s : State) (e : Err) : (s.recordFailure e).seen = s.seen := rfl

/-! ### State.setPending -/

@[simp] theorem State.setPending_inp (s : State) (ms : List HostMove) : (s.setPending ms).inp = s.inp := rfl
@[simp] theorem State.setPending_out (s : State) (ms : List HostMove) : (s.setPending ms).out = s.out := rfl
@[simp] theorem State.setPending_len (s : State) (ms : List HostMove) : (s.setPending ms).len = s.len := rfl
@[simp] theorem State.setPending_cmd (s : State) (ms : List HostMove) : (s.setPending ms).cmd = s.cmd := rfl
@[simp] theorem State.setPending_phase (s : State) (ms : List HostMove) : (s.setPending ms).phase = s.phase := rfl
@[simp] theorem State.setPending_err (s : State) (ms : List HostMove) : (s.setPending ms).err = s.err := rfl
@[simp] theorem State.setPending_latch (s : State) (ms : List HostMove) : (s.setPending ms).latch = s.latch := rfl
@[simp] theorem State.setPending_regs (s : State) (ms : List HostMove) : (s.setPending ms).regs = s.regs := rfl
@[simp] theorem State.setPending_failures (s : State) (ms : List HostMove) : (s.setPending ms).failures = s.failures := rfl
@[simp] theorem State.setPending_pending (s : State) (ms : List HostMove) : (s.setPending ms).pending = ms := rfl
@[simp] theorem State.setPending_watch (s : State) (ms : List HostMove) : (s.setPending ms).watch = s.watch := rfl
@[simp] theorem State.setPending_seen (s : State) (ms : List HostMove) : (s.setPending ms).seen = s.seen := rfl

/-! ### State.setWatch -/

@[simp] theorem State.setWatch_inp (s : State) (on : Bool) : (s.setWatch on).inp = s.inp := rfl
@[simp] theorem State.setWatch_out (s : State) (on : Bool) : (s.setWatch on).out = s.out := rfl
@[simp] theorem State.setWatch_len (s : State) (on : Bool) : (s.setWatch on).len = s.len := rfl
@[simp] theorem State.setWatch_cmd (s : State) (on : Bool) : (s.setWatch on).cmd = s.cmd := rfl
@[simp] theorem State.setWatch_phase (s : State) (on : Bool) : (s.setWatch on).phase = s.phase := rfl
@[simp] theorem State.setWatch_err (s : State) (on : Bool) : (s.setWatch on).err = s.err := rfl
@[simp] theorem State.setWatch_latch (s : State) (on : Bool) : (s.setWatch on).latch = s.latch := rfl
@[simp] theorem State.setWatch_regs (s : State) (on : Bool) : (s.setWatch on).regs = s.regs := rfl
@[simp] theorem State.setWatch_failures (s : State) (on : Bool) : (s.setWatch on).failures = s.failures := rfl
@[simp] theorem State.setWatch_pending (s : State) (on : Bool) : (s.setWatch on).pending = s.pending := rfl
@[simp] theorem State.setWatch_watch (s : State) (on : Bool) : (s.setWatch on).watch = on := rfl
@[simp] theorem State.setWatch_seen (s : State) (on : Bool) : (s.setWatch on).seen = s.seen := rfl

/-! ### State.see -/

@[simp] theorem State.see_inp (s : State) (x : Seen) : (s.see x).inp = s.inp := rfl
@[simp] theorem State.see_out (s : State) (x : Seen) : (s.see x).out = s.out := rfl
@[simp] theorem State.see_len (s : State) (x : Seen) : (s.see x).len = s.len := rfl
@[simp] theorem State.see_cmd (s : State) (x : Seen) : (s.see x).cmd = s.cmd := rfl
@[simp] theorem State.see_phase (s : State) (x : Seen) : (s.see x).phase = s.phase := rfl
@[simp] theorem State.see_err (s : State) (x : Seen) : (s.see x).err = s.err := rfl
@[simp] theorem State.see_latch (s : State) (x : Seen) : (s.see x).latch = s.latch := rfl
@[simp] theorem State.see_regs (s : State) (x : Seen) : (s.see x).regs = s.regs := rfl
@[simp] theorem State.see_failures (s : State) (x : Seen) : (s.see x).failures = s.failures := rfl
@[simp] theorem State.see_pending (s : State) (x : Seen) : (s.see x).pending = s.pending := rfl
@[simp] theorem State.see_watch (s : State) (x : Seen) : (s.see x).watch = s.watch := rfl
@[simp] theorem State.see_seen (s : State) (x : Seen) : (s.see x).seen = x :: s.seen := rfl

/-! ### State.raiseError -/

@[simp] theorem State.raiseError_inp (s : State) (e : Err) : (s.raiseError e).inp = s.inp := rfl
@[simp] theorem State.raiseError_out (s : State) (e : Err) : (s.raiseError e).out = none := rfl
@[simp] theorem State.raiseError_len (s : State) (e : Err) : (s.raiseError e).len = s.len := rfl
@[simp] theorem State.raiseError_cmd (s : State) (e : Err) : (s.raiseError e).cmd = s.cmd := rfl
@[simp] theorem State.raiseError_phase (s : State) (e : Err) : (s.raiseError e).phase = .failed := rfl
@[simp] theorem State.raiseError_err (s : State) (e : Err) : (s.raiseError e).err = e := rfl
@[simp] theorem State.raiseError_latch (s : State) (e : Err) : (s.raiseError e).latch = s.latch := rfl
@[simp] theorem State.raiseError_regs (s : State) (e : Err) : (s.raiseError e).regs = s.regs := rfl
@[simp] theorem State.raiseError_failures (s : State) (e : Err) : (s.raiseError e).failures = e :: s.failures := rfl
@[simp] theorem State.raiseError_pending (s : State) (e : Err) : (s.raiseError e).pending = s.pending := rfl
@[simp] theorem State.raiseError_watch (s : State) (e : Err) : (s.raiseError e).watch = s.watch := rfl
@[simp] theorem State.raiseError_seen (s : State) (e : Err) : (s.raiseError e).seen = s.seen := rfl

/-! ### State.beginStart -/

@[simp] theorem State.beginStart_inp (s : State) : s.beginStart.inp = s.inp := rfl
@[simp] theorem State.beginStart_out (s : State) : s.beginStart.out = none := rfl
@[simp] theorem State.beginStart_len (s : State) : s.beginStart.len = s.len := rfl
@[simp] theorem State.beginStart_cmd (s : State) : s.beginStart.cmd = s.cmd := rfl
@[simp] theorem State.beginStart_phase (s : State) : s.beginStart.phase = s.phase := rfl
@[simp] theorem State.beginStart_err (s : State) : s.beginStart.err = s.err := rfl
@[simp] theorem State.beginStart_latch (s : State) : s.beginStart.latch = { cmd := s.cmd, len := s.len } := rfl
@[simp] theorem State.beginStart_regs (s : State) : s.beginStart.regs = s.regs := rfl
@[simp] theorem State.beginStart_failures (s : State) : s.beginStart.failures = s.failures := rfl
@[simp] theorem State.beginStart_pending (s : State) : s.beginStart.pending = s.pending := rfl
@[simp] theorem State.beginStart_watch (s : State) : s.beginStart.watch = s.watch := rfl
@[simp] theorem State.beginStart_seen (s : State) : s.beginStart.seen = s.seen := rfl

/-! ### State.beginOperation -/

@[simp] theorem State.beginOperation_inp (s : State) : s.beginOperation.inp = s.inp := rfl
@[simp] theorem State.beginOperation_out (s : State) : s.beginOperation.out = some [] := rfl
@[simp] theorem State.beginOperation_len (s : State) : s.beginOperation.len = s.len := rfl
@[simp] theorem State.beginOperation_cmd (s : State) : s.beginOperation.cmd = s.cmd := rfl
@[simp] theorem State.beginOperation_phase (s : State) : s.beginOperation.phase = .busy := rfl
@[simp] theorem State.beginOperation_err (s : State) : s.beginOperation.err = .none := rfl
@[simp] theorem State.beginOperation_latch (s : State) : s.beginOperation.latch = s.latch := rfl
@[simp] theorem State.beginOperation_regs (s : State) : s.beginOperation.regs = { s.regs with i := 0 } := rfl
@[simp] theorem State.beginOperation_failures (s : State) : s.beginOperation.failures = s.failures := rfl
@[simp] theorem State.beginOperation_pending (s : State) : s.beginOperation.pending = s.pending := rfl
@[simp] theorem State.beginOperation_watch (s : State) : s.beginOperation.watch = s.watch := rfl
@[simp] theorem State.beginOperation_seen (s : State) : s.beginOperation.seen = s.seen := rfl

/-! ### State.startUsage -/

@[simp] theorem State.startUsage_inp (s : State) : s.startUsage.inp = s.inp := rfl
@[simp] theorem State.startUsage_out (s : State) : s.startUsage.out = none := rfl
@[simp] theorem State.startUsage_len (s : State) : s.startUsage.len = s.len := rfl
@[simp] theorem State.startUsage_cmd (s : State) : s.startUsage.cmd = s.cmd := rfl
@[simp] theorem State.startUsage_phase (s : State) : s.startUsage.phase = .failed := rfl
@[simp] theorem State.startUsage_err (s : State) : s.startUsage.err = .usage := rfl
@[simp] theorem State.startUsage_latch (s : State) : s.startUsage.latch = { cmd := s.cmd, len := s.len } := rfl
@[simp] theorem State.startUsage_regs (s : State) : s.startUsage.regs = s.regs := rfl
@[simp] theorem State.startUsage_failures (s : State) : s.startUsage.failures = .usage :: s.failures := rfl
@[simp] theorem State.startUsage_pending (s : State) : s.startUsage.pending = s.pending := rfl
@[simp] theorem State.startUsage_watch (s : State) : s.startUsage.watch = s.watch := rfl
@[simp] theorem State.startUsage_seen (s : State) : s.startUsage.seen = s.seen := rfl

/-! ### State.putEngine -/

@[simp] theorem State.putEngine_inp (s : State) (e : Engine) : (s.putEngine e).inp = s.inp := rfl
@[simp] theorem State.putEngine_out (s : State) (e : Engine) : (s.putEngine e).out = some e.out := rfl
@[simp] theorem State.putEngine_len (s : State) (e : Engine) : (s.putEngine e).len = s.len := rfl
@[simp] theorem State.putEngine_cmd (s : State) (e : Engine) : (s.putEngine e).cmd = s.cmd := rfl
@[simp] theorem State.putEngine_phase (s : State) (e : Engine) : (s.putEngine e).phase = s.phase := rfl
@[simp] theorem State.putEngine_err (s : State) (e : Engine) : (s.putEngine e).err = s.err := rfl
@[simp] theorem State.putEngine_latch (s : State) (e : Engine) : (s.putEngine e).latch = s.latch := rfl
@[simp] theorem State.putEngine_regs (s : State) (e : Engine) : (s.putEngine e).regs = e.regs := rfl
@[simp] theorem State.putEngine_failures (s : State) (e : Engine) : (s.putEngine e).failures = s.failures := rfl
@[simp] theorem State.putEngine_pending (s : State) (e : Engine) : (s.putEngine e).pending = s.pending := rfl
@[simp] theorem State.putEngine_watch (s : State) (e : Engine) : (s.putEngine e).watch = s.watch := rfl
@[simp] theorem State.putEngine_seen (s : State) (e : Engine) : (s.putEngine e).seen = s.seen := rfl

/-! ### State.hostReset -/

@[simp] theorem State.hostReset_inp (s : State) : s.hostReset.inp = State.reset.inp := rfl
@[simp] theorem State.hostReset_out (s : State) : s.hostReset.out = State.reset.out := rfl
@[simp] theorem State.hostReset_len (s : State) : s.hostReset.len = State.reset.len := rfl
@[simp] theorem State.hostReset_cmd (s : State) : s.hostReset.cmd = State.reset.cmd := rfl
@[simp] theorem State.hostReset_phase (s : State) : s.hostReset.phase = State.reset.phase := rfl
@[simp] theorem State.hostReset_err (s : State) : s.hostReset.err = State.reset.err := rfl
@[simp] theorem State.hostReset_latch (s : State) : s.hostReset.latch = State.reset.latch := rfl
@[simp] theorem State.hostReset_regs (s : State) : s.hostReset.regs = State.reset.regs := rfl
@[simp] theorem State.hostReset_failures (s : State) : s.hostReset.failures = s.failures := rfl
@[simp] theorem State.hostReset_pending (s : State) : s.hostReset.pending = s.pending := rfl
@[simp] theorem State.hostReset_watch (s : State) : s.hostReset.watch = s.watch := rfl
@[simp] theorem State.hostReset_seen (s : State) : s.hostReset.seen = s.seen := rfl

/-! ### State.completeIfAllDone -/

@[simp] theorem State.completeIfAllDone_inp (s : State) : s.completeIfAllDone.inp = s.inp := by
  unfold State.completeIfAllDone; split <;> rfl
@[simp] theorem State.completeIfAllDone_out (s : State) : s.completeIfAllDone.out = s.out := by
  unfold State.completeIfAllDone; split <;> rfl
@[simp] theorem State.completeIfAllDone_len (s : State) : s.completeIfAllDone.len = s.len := by
  unfold State.completeIfAllDone; split <;> rfl
@[simp] theorem State.completeIfAllDone_cmd (s : State) : s.completeIfAllDone.cmd = s.cmd := by
  unfold State.completeIfAllDone; split <;> rfl
@[simp] theorem State.completeIfAllDone_latch (s : State) : s.completeIfAllDone.latch = s.latch := by
  unfold State.completeIfAllDone; split <;> rfl
@[simp] theorem State.completeIfAllDone_regs (s : State) : s.completeIfAllDone.regs = s.regs := by
  unfold State.completeIfAllDone; split <;> rfl
@[simp] theorem State.completeIfAllDone_failures (s : State) : s.completeIfAllDone.failures = s.failures := by
  unfold State.completeIfAllDone; split <;> rfl
@[simp] theorem State.completeIfAllDone_pending (s : State) : s.completeIfAllDone.pending = s.pending := by
  unfold State.completeIfAllDone; split <;> rfl
@[simp] theorem State.completeIfAllDone_watch (s : State) : s.completeIfAllDone.watch = s.watch := by
  unfold State.completeIfAllDone; split <;> rfl
@[simp] theorem State.completeIfAllDone_seen (s : State) : s.completeIfAllDone.seen = s.seen := by
  unfold State.completeIfAllDone; split <;> rfl

theorem State.completeIfAllDone_phase (s : State) :
    s.completeIfAllDone.phase = if s.latch.len ≤ s.regs.i then .done else s.phase := by
  unfold State.completeIfAllDone; split <;> rfl

theorem State.completeIfAllDone_err (s : State) :
    s.completeIfAllDone.err = if s.latch.len ≤ s.regs.i then .none else s.err := by
  unfold State.completeIfAllDone; split <;> rfl

/-! ### Engine.advance -/

@[simp] theorem Engine.advance_out (k : Nat) (e : Engine) : (e.advance k).out = e.out := rfl

@[simp] theorem Engine.advance_regs (k : Nat) (e : Engine) : (e.advance k).regs = { e.regs with i := e.regs.i + k } := rfl

end Sys2Proof.Machine
end

