-- ==== Sys2Proof/Laws/Engine.lean ====
section
/-! SUPPORT. What one iteration of each operation's loop does, once for each, and then for all operations in one form: it succeeds
below an accepted length, moves the index counter by the stride, and writes exactly the cells of its index. -/

namespace Sys2Proof.Machine

/-! ### The four iterations -/

theorem fixDecIter_eq {inp : Memory} {n : Nat} (e : Engine) (hc : Memory.covers inp n = true) (hn : n % 32 = 0)
    (hi : e.regs.i < n) :
    fixDecIter inp n e = .ok
      { regs := { e.regs with i := e.regs.i + 1 }
        out := Memory.write e.out e.regs.i (nibbleSwap (Memory.byteAt inp (decSrc e.regs.i))) } := by
  simp [fixDecIter, memRead_of_covers hc (decSrc_lt hn hi), memWrite_of_lt _ _ hi, bind, Except.bind, Engine.advance]

theorem fixEncIter_eq {inp : Memory} {n : Nat} (e : Engine) (hc : Memory.covers inp n = true) (hn : n % 32 = 0)
    (hi : e.regs.i < n) :
    fixEncIter inp n e = .ok
      { regs := { e.regs with i := e.regs.i + 1 }
        out := Memory.write e.out (encDst e.regs.i) (nibbleSwap (Memory.byteAt inp (encSrc e.regs.i))) } := by
  simp [fixEncIter, memRead_of_covers hc (encSrc_lt hn hi), memWrite_of_lt _ _ (encDst_lt hn hi), bind, Except.bind,
    Engine.advance]

/-- Byte `k` of the planar-decode group with base `g`. -/
def decGroupByte (inp : Memory) (g k : Nat) : Byte :=
  sprDecUnit (Memory.byteAt inp g) (Memory.byteAt inp (g + 1)) (Memory.byteAt inp (g + 2)) (Memory.byteAt inp (g + 3)) k

/-- Byte `k` of the planar-encode group with base `g`. -/
def encGroupByte (inp : Memory) (g k : Nat) : Byte :=
  sprEncUnit (Memory.byteAt inp g) (Memory.byteAt inp (g + 1)) (Memory.byteAt inp (g + 2)) (Memory.byteAt inp (g + 3)) k

/-- Four consecutive cells. -/
def writeFour (m : Memory) (a : Nat) (f : Nat → Byte) : Memory :=
  Memory.write (Memory.write (Memory.write (Memory.write m a (f 0)) (a + 1) (f 1)) (a + 2) (f 2)) (a + 3) (f 3)

theorem read_writeFour (m : Memory) (a : Nat) (f : Nat → Byte) (x : Nat) :
    Memory.read (writeFour m a f) x = if a ≤ x ∧ x < a + 4 then some (f (x - a)) else Memory.read m x := by
  simp only [writeFour, Memory.read_write]
  by_cases h : a ≤ x ∧ x < a + 4
  · rw [if_pos h]
    obtain ⟨k, rfl⟩ := Nat.exists_eq_add_of_le h.1
    have : k < 4 := by omega
    interval_cases k <;> simp
  · rw [if_neg h, if_neg (by omega), if_neg (by omega), if_neg (by omega), if_neg (by omega)]

theorem writeFour_wf {m : Memory} (a : Nat) (f : Nat → Byte) (hm : Memory.wf m = true) :
    Memory.wf (writeFour m a f) = true :=
  Memory.write_wf _ _ (Memory.write_wf _ _ (Memory.write_wf _ _ (Memory.write_wf _ _ hm)))

theorem planarDecIter_eq {inp : Memory} {n : Nat} (e : Engine) (hc : Memory.covers inp n = true)
    (hi : e.regs.i + 3 < n) :
    ∃ w h, planarDecIter inp n e = .ok
      { regs := { e.regs with i := e.regs.i + 4, word := w, hnib := h, p := 0 }
        out := writeFour e.out e.regs.i (decGroupByte inp e.regs.i) } := by
  refine ⟨assembleWord (Memory.byteAt inp (e.regs.i + 0)) (Memory.byteAt inp (e.regs.i + 1))
      (Memory.byteAt inp (e.regs.i + 2)) (Memory.byteAt inp (e.regs.i + 3)) >>> 8,
    holdHighNibble (decPix (Memory.byteAt inp (e.regs.i + 0)) (Memory.byteAt inp (e.regs.i + 1))
      (Memory.byteAt inp (e.regs.i + 2)) (Memory.byteAt inp (e.regs.i + 3)) 6), ?_⟩
  simp only [planarDecIter, memRead_of_covers hc (show e.regs.i + 0 < n by omega),
    memRead_of_covers hc (show e.regs.i + 1 < n by omega), memRead_of_covers hc (show e.regs.i + 2 < n by omega),
    memRead_of_covers hc hi, bind, Except.bind]
  rw [pixelSteps_eight n e.regs.i _ _ _ _ _ hi rfl rfl]
  rfl

theorem encLanes_eq {n g : Nat} (e : Engine) {l0 l1 l2 l3 : Byte} (h : HoldsGroup e.regs.indexes l0 l1 l2 l3)
    (hg : (g ^^^ destXor) + 3 < n) :
    ∃ mk, encLanes n g [0, 1, 2, 3] e = .ok
      { regs := { e.regs with mask := mk, bitplane := sprEncUnit l0 l1 l2 l3 3, p := 0, bp := 3 }
        out := writeFour e.out (g ^^^ destXor) (sprEncUnit l0 l1 l2 l3) } := by
  have lane : ∀ (bp : BitVec 2) (e : Engine), HoldsGroup e.regs.indexes l0 l1 l2 l3 →
      ∃ mk, encLane n g bp e = .ok
        { regs := { e.regs with mask := mk, bitplane := sprEncUnit l0 l1 l2 l3 bp.toNat, p := 0, bp := bp }
          out := Memory.write e.out ((g ^^^ destXor) + bp.toNat) (sprEncUnit l0 l1 l2 l3 bp.toNat) } := by
    intro bp e he
    have hbp : bp.toNat < 4 := bp.isLt
    have hl := laneLoop_spec bp e.regs he
    refine ⟨(laneLoop bp e.regs).mask, ?_⟩
    rw [encLane, encPlace_eq g hbp]
    simp only
    rw [memWrite_of_lt _ _ (by omega)]
    have hb : (laneLoop bp e.regs).bitplane = sprEncUnit l0 l1 l2 l3 bp.toNat := by rw [hl]
    simp only [hb, Except.ok.injEq, Engine.mk.injEq, and_true]
    rw [hl]
  obtain ⟨m0, h0⟩ := lane 0 e h
  simp only [encLanes, bind, Except.bind, h0]
  generalize he1 : (Engine.mk _ _ : Engine) = e1
  obtain ⟨m1, h1⟩ := lane 1 e1 (by subst he1; exact h)
  simp only [h1]
  generalize he2 : (Engine.mk _ _ : Engine) = e2
  obtain ⟨m2, h2⟩ := lane 2 e2 (by subst he2; subst he1; exact h)
  simp only [h2]
  generalize he3 : (Engine.mk _ _ : Engine) = e3
  obtain ⟨m3, h3⟩ := lane 3 e3 (by subst he3; subst he2; subst he1; exact h)
  refine ⟨m3, ?_⟩
  simp only [h3]
  subst he3 he2 he1
  rfl

/-- The accumulation step keeps what is collected and adds the byte read (10_state.md R33). -/
theorem collected_accumulate {inp : Memory} {x : Word} {i k : Nat} (hk : k < 4) (h : Collected inp x i k) :
    Collected inp (accumulate x (Memory.byteAt inp i)) (i + 1) (k + 1) := by
  intro j hj
  refine BitVec.eq_of_getLsbD_eq fun r hr => ?_
  rw [BitVec.getLsbD_setWidth, BitVec.getLsbD_ushiftRight, accumulate_getLsbD _ _ (by omega) hr]
  simp only [hr, decide_true, Bool.true_and]
  by_cases h0 : j = 0
  · subst h0; simp
  · rw [if_neg h0]
    have := congrArg (fun v => v.getLsbD r) (h (j - 1) (by omega))
    simp only [BitVec.getLsbD_setWidth, BitVec.getLsbD_ushiftRight, hr, decide_true, Bool.true_and] at this
    rw [this, show i + 1 - 1 - j = i - 1 - (j - 1) by omega]

/-- Four collected bytes are the group. -/
theorem Collected.holdsGroup {inp : Memory} {x : Word} {g : Nat} (h : Collected inp x (g + 4) 4) :
    HoldsGroup x (Memory.byteAt inp g) (Memory.byteAt inp (g + 1)) (Memory.byteAt inp (g + 2)) (Memory.byteAt inp (g + 3)) := by
  intro j hj
  rw [h j hj]
  interval_cases j <;> simp [pick4]

theorem planarEncIter_collect {inp : Memory} {n : Nat} (e : Engine) (hc : Memory.covers inp n = true)
    (hi : e.regs.i < n) (h3 : e.regs.i % 4 ≠ 3) :
    planarEncIter inp n e = .ok
      { e with regs := { e.regs with
          i := e.regs.i + 1, indexes := accumulate e.regs.indexes (Memory.byteAt inp e.regs.i) } } := by
  simp only [planarEncIter, memRead_of_covers hc hi, bind, Except.bind, and_three, if_neg h3]
  rfl

theorem planarEncIter_lanes {inp : Memory} {n g : Nat} (e : Engine) (hc : Memory.covers inp n = true)
    (hn : n % 128 = 0) (h4 : g % 4 = 0) (hg : g < n) (hi : e.regs.i = g + 3)
    (hx : Collected inp e.regs.indexes e.regs.i 3) :
    ∃ mk, planarEncIter inp n e = .ok
      { regs := { e.regs with
          i := e.regs.i + 1, indexes := accumulate e.regs.indexes (Memory.byteAt inp e.regs.i), mask := mk
          bitplane := encGroupByte inp g 3, p := 0, bp := 3 }
        out := writeFour e.out (g ^^^ destXor) (encGroupByte inp g) } := by
  obtain ⟨⟨i, w, hn', ix, mk, bt, p, bp⟩, out⟩ := e
  simp only at hi hx
  subst hi
  have hlt : g + 3 < n := by omega
  have hg3 : clearLow 2 (g + 3) = g := by rw [clearLow_eq]; omega
  obtain ⟨mk', hm⟩ := encLanes_eq (n := n) (g := g)
    { regs := { i := g + 3, word := w, hnib := hn', indexes := accumulate ix (Memory.byteAt inp (g + 3)), mask := mk
                bitplane := bt, p := p, bp := bp }, out := out }
    (collected_accumulate (by decide) hx).holdsGroup (xor_destXor_lt hn hg h4)
  refine ⟨mk', ?_⟩
  simp only [planarEncIter, memRead_of_covers hc hlt, bind, Except.bind, and_three,
    if_pos (show (g + 3) % 4 = 3 by omega), hg3, hm]
  rfl

end Sys2Proof.Machine
end

