-- ==== Sys2Proof/Laws/Operate.lean ====
section
/-! SUPPORT. One iteration of any operation, Start, and the engine's step: each once, with everything it can do. -/

namespace Sys2Proof.Machine

/-- Every meaning is the shared operation over its own iteration. -/
theorem exec_eq_operate (i : Instr) (s : State) :
    exec i s = operate i.category i.direction (iterationOf i) s := by cases i <;> rfl

theorem stride_pos (c : Category) (d : Direction) : 0 < stride c d := by cases c <;> cases d <;> decide

theorem lengthOk_iff (c : Category) (d : Direction) (n : Nat) :
    lengthOk c d n = true ↔ 0 < n ∧ n % granule c d = 0 := by simp [lengthOk]

/-- The byte FIX.ENC writes at its loop index is the one the closed form names (40_fix_tile_codec.md R105, R108). -/
theorem encOf_encDst (i : Nat) : encOf (encDst i) = encSrc i := by
  have e : i = 32 * (i / 32) + i % 32 := (Nat.div_add_mod i 32).symm
  have hj : i % 32 < 32 := Nat.mod_lt _ (by decide)
  have key : ∀ j < 32, encOf (encDst j) = encSrc j := by decide
  rw [e, encDst_unit _ hj, encOf_unit _ (fix_index_lt_unit hj).2.2.2, key _ hj, encSrc_unit _ hj]

theorem clearLow_two_eq_iff {a v : Nat} (hv : v % 4 = 0) : clearLow 2 a = v ↔ v ≤ a ∧ a < v + 4 := by
  rw [clearLow_eq]; omega

theorem xor_destXor_eq_iff (a b : Nat) : a ^^^ destXor = b ↔ a = b ^^^ destXor := by
  constructor
  · rintro rfl; exact (xor_destXor_self a).symm
  · rintro rfl; exact xor_destXor_self b

theorem clearLow_two_mod (a : Nat) : clearLow 2 a % 4 = 0 := by rw [clearLow_eq]; omega

/-- What one iteration does, said for all operations at once. -/
structure IterationDoes (i : Instr) (inp : Memory) (n : Nat) (e e' : Engine) : Prop where
  index : e'.regs.i = e.regs.i + stride i.category i.direction
  collected : collects i.category i.direction = true → Collected inp e'.regs.indexes e'.regs.i (e'.regs.i % 4)
  cells : ∀ a, Memory.read e'.out a =
    if a < n ∧ visitOf i.category i.direction a = e.regs.i then
      some (outByte i.category i.direction (Memory.byteAt inp) a)
    else Memory.read e.out a
  wf : Memory.wf e.out = true → Memory.wf e'.out = true

theorem fixDecIter_does {inp : Memory} {n : Nat} (e : Engine) (hc : Memory.covers inp n = true) (hn : n % 32 = 0)
    (hi : e.regs.i < n) : ∃ e', fixDecIter inp n e = .ok e' ∧ IterationDoes .fixDec inp n e e' := by
  refine ⟨_, fixDecIter_eq e hc hn hi, ⟨rfl, fun h => (by cases h), fun a => ?_, Memory.write_wf _ _⟩⟩
  simp only [Memory.read_write, Instr.category, Instr.direction, visitOf, outByte]
  by_cases h : a = e.regs.i
  · subst h; simp [hi]
  · simp [h]

theorem fixEncIter_does {inp : Memory} {n : Nat} (e : Engine) (hc : Memory.covers inp n = true) (hn : n % 32 = 0)
    (hi : e.regs.i < n) : ∃ e', fixEncIter inp n e = .ok e' ∧ IterationDoes .fixEnc inp n e e' := by
  refine ⟨_, fixEncIter_eq e hc hn hi, ⟨rfl, fun h => (by cases h), fun a => ?_, Memory.write_wf _ _⟩⟩
  have hv : visitOf Instr.fixEnc.category Instr.fixEnc.direction a = encDst a := rfl
  have ho : outByte Instr.fixEnc.category Instr.fixEnc.direction (Memory.byteAt inp) a =
      nibbleSwap (Memory.byteAt inp (encOf a)) := rfl
  rw [hv, ho, Memory.read_write]
  by_cases h : a = encDst e.regs.i
  · subst h
    rw [if_pos rfl, if_pos ⟨encDst_lt hn hi, encDst_encDst e.regs.i⟩, encOf_encDst]
  · rw [if_neg h, if_neg]
    rintro ⟨_, h'⟩
    exact h (by rw [← h']; exact (encDst_encDst a).symm)

theorem planarDecIter_does (i : Instr) (hi' : i = .sprDec ∨ i = .cdsDec) {inp : Memory} {n : Nat} (e : Engine)
    (hc : Memory.covers inp n = true) (hn : n % 4 = 0) (hi : e.regs.i < n) (h4 : e.regs.i % 4 = 0) :
    ∃ e', planarDecIter inp n e = .ok e' ∧ IterationDoes i inp n e e' := by
  obtain ⟨w, h, he⟩ := planarDecIter_eq e hc (show e.regs.i + 3 < n by omega)
  refine ⟨_, he, ⟨?_, fun h => (by rcases hi' with rfl | rfl <;> cases h), fun a => ?_, writeFour_wf _ _⟩⟩
  · rcases hi' with rfl | rfl <;> rfl
  · have hv : visitOf i.category i.direction a = clearLow 2 a := by rcases hi' with rfl | rfl <;> rfl
    have ho : outByte i.category i.direction (Memory.byteAt inp) a = planarDecByte (Memory.byteAt inp) a := by
      rcases hi' with rfl | rfl <;> rfl
    rw [hv, ho]
    simp only [read_writeFour]
    by_cases h : e.regs.i ≤ a ∧ a < e.regs.i + 4
    · have hg := (clearLow_two_eq_iff h4).2 h
      rw [if_pos h, if_pos ⟨by omega, hg⟩, planarDecByte, hg, and_three, show a % 4 = a - e.regs.i by omega]
      rfl
    · rw [if_neg h, if_neg]
      rintro ⟨_, h'⟩
      exact h ((clearLow_two_eq_iff h4).1 h')

theorem planarEncIter_does (i : Instr) (hi' : i = .sprEnc ∨ i = .cdsEnc) {inp : Memory} {n : Nat} (e : Engine)
    (hc : Memory.covers inp n = true) (hn : n % 128 = 0) (hi : e.regs.i < n)
    (hx : Collected inp e.regs.indexes e.regs.i (e.regs.i % 4)) :
    ∃ e', planarEncIter inp n e = .ok e' ∧ IterationDoes i inp n e e' := by
  have hs : stride i.category i.direction = 1 := by rcases hi' with rfl | rfl <;> rfl
  have hv : ∀ a, visitOf i.category i.direction a = (clearLow 2 a ^^^ destXor) + 3 := by
    rcases hi' with rfl | rfl <;> exact fun _ => rfl
  have ho : ∀ a, outByte i.category i.direction (Memory.byteAt inp) a = planarEncByte (Memory.byteAt inp) a := by
    rcases hi' with rfl | rfl <;> exact fun _ => rfl
  have hcol := collected_accumulate (Nat.mod_lt _ (by decide)) hx
  by_cases h3 : e.regs.i % 4 = 3
  · obtain ⟨g, hg⟩ : ∃ g, e.regs.i = g + 3 := ⟨e.regs.i - 3, by omega⟩
    have h4 : g % 4 = 0 := by omega
    obtain ⟨mk, he⟩ := planarEncIter_lanes e hc hn h4 (by omega) hg (by rw [h3] at hx; exact hx)
    refine ⟨_, he, ⟨by rw [hs], fun _ => ?_, fun a => ?_, writeFour_wf _ _⟩⟩
    · simp only
      rw [show (e.regs.i + 1) % 4 = 0 by omega]
      intro j hj; omega
    · rw [hv, ho]
      simp only [read_writeFour]
      have hd := xor_destXor_mod_four h4
      have hlt := xor_destXor_lt hn (show g < n by omega) h4
      by_cases h : g ^^^ destXor ≤ a ∧ a < (g ^^^ destXor) + 4
      · have hcl := (clearLow_two_eq_iff hd).2 h
        rw [if_pos h, if_pos ⟨by omega, by rw [hcl, xor_destXor_self, hg]⟩, planarEncByte, hcl, xor_destXor_self, and_three,
          show a % 4 = a - (g ^^^ destXor) by omega]
        rfl
      · rw [if_neg h, if_neg]
        rintro ⟨_, h'⟩
        apply h
        have h'' : clearLow 2 a ^^^ destXor = g := by omega
        exact (clearLow_two_eq_iff hd).1 ((xor_destXor_eq_iff _ _).1 h'')
  · refine ⟨_, planarEncIter_collect e hc hi h3, ⟨by rw [hs], fun _ => ?_, fun a => ?_, id⟩⟩
    · simp only
      rw [show (e.regs.i + 1) % 4 = e.regs.i % 4 + 1 by omega]
      exact hcol
    · rw [hv, if_neg]
      rintro ⟨_, h'⟩
      have := xor_destXor_mod_four (clearLow_two_mod a)
      omega

/-- Below an accepted length, on a covered input and at an aligned index, an iteration succeeds and does what it should. -/
theorem iteration_does (i : Instr) {inp : Memory} {n : Nat} (e : Engine)
    (hok : lengthOk i.category i.direction n = true) (hc : Memory.covers inp n = true) (hi : e.regs.i < n)
    (ha : e.regs.i % stride i.category i.direction = 0)
    (hx : collects i.category i.direction = true → Collected inp e.regs.indexes e.regs.i (e.regs.i % 4)) :
    ∃ e', iterationOf i inp n e = .ok e' ∧ IterationDoes i inp n e e' := by
  have hn := ((lengthOk_iff ..).1 hok).2
  cases i
  · exact fixEncIter_does e hc hn hi
  · exact planarEncIter_does _ (.inl rfl) e hc hn hi (hx rfl)
  · exact planarEncIter_does _ (.inr rfl) e hc hn hi (hx rfl)
  · exact fixDecIter_does e hc hn hi
  · exact planarDecIter_does _ (.inl rfl) e hc hn hi ha
  · exact planarDecIter_does _ (.inr rfl) e hc hn hi ha

/-! ### Start and the engine's step -/

/-- Everything Start can do. -/
theorem start_cases (c : Category) (d : Direction) (s : State) :
    (lengthOk c d s.len = false ∧ start c d s = .next (s.beginStart.raiseError .length)) ∨
    (lengthOk c d s.len = true ∧ Memory.covers s.inp s.len = false ∧ start c d s = .refused .inputNotSupplied) ∨
    (lengthOk c d s.len = true ∧ Memory.covers s.inp s.len = true ∧ start c d s = .next s.beginStart.beginOperation) := by
  unfold start
  cases lengthOk c d s.len <;> cases Memory.covers s.inp s.len <;> simp

/-- Everything a step of the engine can do: complete, or put what one iteration gives, or stop. -/
theorem engineStep_next {f : Iteration} {s t : State} (h : engineStep f s = .next t) :
    (s.latch.len ≤ s.regs.i ∧ t = s.setStatus .done .none) ∨
    ∃ m e, s.regs.i < s.latch.len ∧ s.out = some m ∧ f s.inp s.latch.len { regs := s.regs, out := m } = .ok e ∧
      t = (s.putEngine e).completeIfAllDone := by
  unfold engineStep at h
  split at h
  · next hle => left; cases h; exact ⟨hle, by simp [State.completeIfAllDone, hle]⟩
  · next hlt =>
    right
    split at h
    · cases h
    · next m hm =>
      split at h
      · next e he => cases h; exact ⟨m, e, by omega, hm, he, rfl⟩
      · cases h

/-- Whatever one step of the engine keeps of a state, the engine's run keeps. -/
theorem engineRun_keeps {f : Iteration} {P : State → Prop} (hstep : ∀ s t, P s → engineStep f s = .next t → P t)
    {k : Nat} {s t : State} (hs : P s) (h : engineRun f k s = .next t) : P t := by
  induction k generalizing s with
  | zero => cases h; exact hs
  | succ k ih =>
    unfold engineRun at h
    split at h
    · next u hu =>
      split at h
      · exact ih (hstep _ _ hs hu) h
      · cases h; exact hstep _ _ hs hu
    · cases h
    · cases h

/-- Whatever one step of the engine keeps of a state, its turn keeps. -/
theorem engineTurn_keeps {f : Iteration} {P : State → Prop} (hstep : ∀ s t, P s → engineStep f s = .next t → P t)
    {s t : State} (hs : P s) (h : engineTurn f s = .next t) : P t := by
  unfold engineTurn at h
  split at h
  · exact hstep _ _ hs h
  · exact engineRun_keeps hstep hs h

/-- Everything an operation can answer with a next state: in Busy the engine's turn, else a failed Start, a Start left Busy for the
host to watch, or a Start and the engine's turn. -/
theorem operate_next {c : Category} {d : Direction} {f : Iteration} {s t : State} (h : operate c d f s = .next t) :
    (s.phase = .busy ∧ engineTurn f s = .next t) ∨
    (s.phase ≠ .busy ∧ lengthOk c d s.len = false ∧ t = s.beginStart.raiseError .length) ∨
    (s.phase ≠ .busy ∧ lengthOk c d s.len = true ∧ Memory.covers s.inp s.len = true ∧
      ((s.watch = true ∧ t = s.beginStart.beginOperation) ∨
       (s.watch = false ∧ engineTurn f s.beginStart.beginOperation = .next t))) := by
  unfold operate at h
  split at h
  · next hb => exact .inl ⟨hb, h⟩
  · next hb =>
    right
    rcases start_cases c d s with ⟨hl, hs⟩ | ⟨hl, hc, hs⟩ | ⟨hl, hc, hs⟩
    · rw [hs] at h
      left
      simp at h
      exact ⟨hb, hl, h.symm⟩
    · rw [hs] at h; cases h
    · rw [hs] at h
      right
      refine ⟨hb, hl, hc, ?_⟩
      cases hw : s.watch <;> simp [hw] at h
      · exact .inr ⟨rfl, h⟩
      · exact .inl ⟨rfl, h.symm⟩

end Sys2Proof.Machine
end

