-- ==== Sys2Proof/Laws/Frame.lean ====
section
/-! SUPPORT. What the engine and each iteration leave alone, in any state: the host's part of the state, the working registers the
operation does not use, and every cell of OUT but those at its offsets. -/

namespace Sys2Proof.Machine

theorem bind_ok {α β : Type} {x : Except Fault α} {f : α → Except Fault β} {b : β} (h : (x >>= f) = .ok b) :
    ∃ a, x = .ok a ∧ f a = .ok b := by
  cases x with
  | error r => cases h
  | ok a => exact ⟨a, rfl, h⟩

/-- What the engine leaves alone of a state. -/
structure EngineKeeps (s t : State) : Prop where
  inp : t.inp = s.inp
  len : t.len = s.len
  cmd : t.cmd = s.cmd
  pending : t.pending = s.pending
  watch : t.watch = s.watch
  seen : t.seen = s.seen
  failures : t.failures = s.failures
  latch : t.latch = s.latch
  phase : t.phase = s.phase ∨ t.phase = .done

theorem engineStep_keeps {f : Iteration} {s t : State} (h : engineStep f s = .next t) : EngineKeeps s t := by
  rcases engineStep_next h with ⟨_, rfl⟩ | ⟨m, e, _, _, _, rfl⟩
  · constructor <;> simp
  · constructor <;> simp [State.completeIfAllDone_phase]
    by_cases hc : s.latch.len ≤ e.regs.i <;> simp [hc]

theorem EngineKeeps.trans {s t u : State} (h : EngineKeeps s t) (h' : EngineKeeps t u) : EngineKeeps s u where
  inp := h'.inp.trans h.inp
  len := h'.len.trans h.len
  cmd := h'.cmd.trans h.cmd
  pending := h'.pending.trans h.pending
  watch := h'.watch.trans h.watch
  seen := h'.seen.trans h.seen
  failures := h'.failures.trans h.failures
  latch := h'.latch.trans h.latch
  phase := by
    rcases h'.phase with h' | h'
    · rw [h']; exact h.phase
    · exact .inr h'

theorem engineTurn_frame {f : Iteration} {s t : State} (h : engineTurn f s = .next t) : EngineKeeps s t :=
  engineTurn_keeps (P := EngineKeeps s) (fun _ _ hu huv => hu.trans (engineStep_keeps huv))
    (by constructor <;> simp) h

/-- A relation on the working registers that every iteration respects, and that resetting I respects, holds across an operation. -/
theorem exec_regs_keeps {P : Regs → Regs → Prop} (hrefl : ∀ r, P r r) (htrans : ∀ a b c, P a b → P b c → P a c)
    (hi : ∀ (r : Regs) (k : Nat), P r { r with i := k }) {i : Instr}
    (hstep : ∀ inp n e e', iterationOf i inp n e = .ok e' → P e.regs e'.regs) {s t : State} (h : exec i s = .next t) :
    P s.regs t.regs := by
  rw [exec_eq_operate] at h
  have turn : ∀ {s t}, engineTurn (iterationOf i) s = .next t → P s.regs t.regs := by
    intro s t h
    refine engineTurn_keeps (P := fun t => P s.regs t.regs) ?_ (hrefl _) h
    intro u v hu huv
    rcases engineStep_next huv with ⟨_, rfl⟩ | ⟨m, e, _, _, he, rfl⟩
    · exact hu
    · simpa using htrans _ _ _ hu (hstep _ _ _ _ he)
  rcases operate_next h with ⟨_, h⟩ | ⟨_, _, rfl⟩ | ⟨_, _, _, ⟨_, rfl⟩ | ⟨_, h⟩⟩
  · exact turn h
  · exact hrefl _
  · exact hi _ _
  · exact htrans _ _ _ (by simpa using hi s.regs 0) (turn h)

/-! ### Iterations -/

theorem fixDecIter_frame {inp : Memory} {n : Nat} {e e' : Engine} (h : fixDecIter inp n e = .ok e') :
    e'.regs = { e.regs with i := e'.regs.i } ∧ ∀ a, a ≠ e.regs.i → Memory.read e'.out a = Memory.read e.out a := by
  obtain ⟨b, _, h⟩ := bind_ok h
  obtain ⟨u, hu, h⟩ := bind_ok h
  obtain ⟨_, rfl⟩ := memWrite_ok hu
  cases h
  exact ⟨rfl, fun a ha => Memory.read_write_other _ _ ha⟩

theorem fixEncIter_frame {inp : Memory} {n : Nat} {e e' : Engine} (h : fixEncIter inp n e = .ok e') :
    e'.regs = { e.regs with i := e'.regs.i } ∧
      ∀ a, a ≠ encDst e.regs.i → Memory.read e'.out a = Memory.read e.out a := by
  obtain ⟨b, _, h⟩ := bind_ok h
  obtain ⟨u, hu, h⟩ := bind_ok h
  obtain ⟨_, rfl⟩ := memWrite_ok hu
  cases h
  exact ⟨rfl, fun a ha => Memory.read_write_other _ _ ha⟩

/-- What planar decode of the group with base `g` leaves alone. -/
structure GroupKeeps (g : Nat) (e e' : Engine) : Prop where
  indexes : e'.regs.indexes = e.regs.indexes
  mask : e'.regs.mask = e.regs.mask
  bitplane : e'.regs.bitplane = e.regs.bitplane
  bp : e'.regs.bp = e.regs.bp
  cells : ∀ a, (∀ k < 4, a ≠ g + k) → Memory.read e'.out a = Memory.read e.out a

theorem pixelStep_frame {n g : Nat} {e e' : Engine} (h : pixelStep n g e = .ok e') : GroupKeeps g e e' := by
  unfold pixelStep at h
  simp only at h
  split at h
  · cases h; constructor <;> simp [nextPixel]
  · obtain ⟨u, hu, h⟩ := bind_ok h
    obtain ⟨_, rfl⟩ := memWrite_ok hu
    cases h
    refine ⟨rfl, rfl, rfl, rfl, fun a ha => ?_⟩
    have := e.regs.p.isLt
    exact Memory.read_write_other _ _ (ha _ (by omega))

theorem pixelSteps_frame {n g : Nat} (k : Nat) {e e' : Engine} (h : pixelSteps n g k e = .ok e') :
    GroupKeeps g e e' := by
  induction k generalizing e with
  | zero => cases h; constructor <;> simp
  | succ k ih =>
    obtain ⟨u, hu, h⟩ := bind_ok h
    have h1 := pixelStep_frame hu
    have h2 := ih h
    exact ⟨h2.indexes.trans h1.indexes, h2.mask.trans h1.mask, h2.bitplane.trans h1.bitplane, h2.bp.trans h1.bp,
      fun a ha => (h2.cells a ha).trans (h1.cells a ha)⟩

theorem planarDecIter_frame {inp : Memory} {n : Nat} {e e' : Engine} (h : planarDecIter inp n e = .ok e') :
    GroupKeeps e.regs.i e e' := by
  unfold planarDecIter at h
  obtain ⟨_, _, h⟩ := bind_ok h
  obtain ⟨_, _, h⟩ := bind_ok h
  obtain ⟨_, _, h⟩ := bind_ok h
  obtain ⟨_, _, h⟩ := bind_ok h
  obtain ⟨u, hu, h⟩ := bind_ok h
  cases h
  have hk := pixelSteps_frame 8 hu
  exact ⟨hk.indexes, hk.mask, hk.bitplane, hk.bp, hk.cells⟩

theorem laneSteps_frame (k : Nat) (r : Regs) : (laneSteps k r).word = r.word ∧ (laneSteps k r).hnib = r.hnib := by
  induction k generalizing r with
  | zero => exact ⟨rfl, rfl⟩
  | succ k ih => exact ih (laneStep r)

theorem encLanes_frame {n g : Nat} (bps : List (BitVec 2)) {e e' : Engine} (h : encLanes n g bps e = .ok e') :
    e'.regs.word = e.regs.word ∧ e'.regs.hnib = e.regs.hnib ∧
      ∀ a, (∀ bp < 4, a ≠ encPlace g bp) → Memory.read e'.out a = Memory.read e.out a := by
  induction bps generalizing e with
  | nil => cases h; simp
  | cons bp bps ih =>
    obtain ⟨u, hu, h⟩ := bind_ok h
    obtain ⟨a2, b2, c2⟩ := ih h
    unfold encLane at hu
    obtain ⟨_, rfl⟩ := memWrite_ok hu
    have hl := laneSteps_frame 8 (laneStart bp e.regs)
    exact ⟨a2.trans hl.1, b2.trans hl.2, fun a ha =>
      (c2 a ha).trans (Memory.read_write_other _ _ (ha _ bp.isLt))⟩

theorem planarEncIter_frame {inp : Memory} {n : Nat} {e e' : Engine} (h : planarEncIter inp n e = .ok e') :
    e'.regs.word = e.regs.word ∧ e'.regs.hnib = e.regs.hnib ∧
      ∀ a, (e.regs.i &&& 3 = 3 → ∀ bp < 4, a ≠ encPlace (clearLow 2 e.regs.i) bp) →
        Memory.read e'.out a = Memory.read e.out a := by
  unfold planarEncIter at h
  obtain ⟨b, _, h⟩ := bind_ok h
  simp only at h
  split at h
  · next h3 =>
    obtain ⟨u, hu, h⟩ := bind_ok h
    cases h
    obtain ⟨a1, b1, c1⟩ := encLanes_frame _ hu
    exact ⟨a1, b1, fun a ha => c1 a (ha h3)⟩
  · obtain ⟨u, hu, h⟩ := bind_ok h
    cases hu; cases h; exact ⟨rfl, rfl, fun _ _ => rfl⟩

end Sys2Proof.Machine
end

