-- ==== Sys2Proof/Laws/PerInstr.lean ====
section
/-! SUPPORT. The statement made per instruction: its command word is well formed, decodes to it, and carries its own row's category
and direction in the fields of the format (spec/30_encoding.md R80, R81, R83). -/

namespace Sys2Proof.Laws.CommandWord

/-- What is said of each instruction's command word. -/
def Statement (i : Instr) : Prop :=
  i.wf = true ∧ i.command.wf = true ∧ Command.ofByte (encode i) = i.command ∧
    categoryOfCode (Command.ofByte (encode i)).cat = some i.category ∧
    directionOfCode (Command.ofByte (encode i)).dir = i.direction ∧
    decodeTableWord 8 (encode i).toNat = some i

theorem fixEnc : Statement .fixEnc := by unfold Statement; decide

theorem sprEnc : Statement .sprEnc := by unfold Statement; decide

theorem cdsEnc : Statement .cdsEnc := by unfold Statement; decide

theorem fixDec : Statement .fixDec := by unfold Statement; decide

theorem sprDec : Statement .sprDec := by unfold Statement; decide

theorem cdsDec : Statement .cdsDec := by unfold Statement; decide

end Sys2Proof.Laws.CommandWord
end

