-- ==== Sys2Proof/Laws/Run.lean ====
section
/-! SUPPORT. An operation under way, on its way to Done: what one engine step does to `Progress`, and where the engine's run of an
operation ends. -/

namespace Sys2Proof.Machine

theorem len_mod_stride {c : Category} {d : Direction} {n : Nat} (h : lengthOk c d n = true) : n % stride c d = 0 := by
  have := ((lengthOk_iff ..).1 h).2
  cases c <;> cases d <;> simp [granule, stride, Config.unitFix, Config.unitSpr, Config.blockSprEnc] at this ⊢ <;> omega

theorem visitOf_mod (c : Category) (d : Direction) (a : Nat) : visitOf c d a % stride c d = 0 := by
  cases c <;> cases d <;> simp [visitOf, stride, Nat.mod_one, clearLow_two_mod]

theorem visitOf_lt {c : Category} {d : Direction} {n a : Nat} (h : lengthOk c d n = true) (ha : a < n) :
    visitOf c d a < n := by
  have hm := ((lengthOk_iff ..).1 h).2
  have enc : n % 128 = 0 → (clearLow 2 a ^^^ destXor) + 3 < n := fun hm =>
    xor_destXor_lt hm (by rw [clearLow_eq]; omega) (clearLow_two_mod a)
  have dec : clearLow 2 a < n := by rw [clearLow_eq]; omega
  cases c <;> cases d <;> simp only [granule, Config.unitFix, Config.unitSpr, Config.blockSprEnc] at hm
  · exact encDst_lt hm ha
  · exact ha
  · exact enc hm
  · exact dec
  · exact enc hm
  · exact dec

/-- Among multiples of `st`, below `x + st` is below or at `x`. -/
theorem lt_add_stride_iff {st v x : Nat} (hp : 0 < st) (hv : v % st = 0) (hx : x % st = 0) :
    v < x + st ↔ v = x ∨ v < x := by
  constructor
  · intro hlt
    obtain ⟨p, rfl⟩ := Nat.dvd_of_mod_eq_zero hv
    obtain ⟨q, rfl⟩ := Nat.dvd_of_mod_eq_zero hx
    rw [← Nat.mul_succ] at hlt
    have := Nat.lt_of_mul_lt_mul_left hlt
    rcases Nat.lt_or_ge p q with hlt' | hge
    · exact .inr (Nat.mul_lt_mul_of_pos_left hlt' hp)
    · left; rw [show p = q by omega]
  · omega

/-- An operation under way has a next iteration, and it does what it should. -/
theorem progress_step {s : State} {i : Instr} {m : Memory} (h : Progress s i m) :
    ∃ e, engineStep (iterationOf i) s = .next (s.putEngine e).completeIfAllDone ∧
      IterationDoes i s.inp s.latch.len { regs := s.regs, out := m } e := by
  obtain ⟨e, he, hd⟩ := iteration_does i { regs := s.regs, out := m } h.length_ok h.supplied h.index_below
    h.index_aligned h.collected
  refine ⟨e, ?_, hd⟩
  have := h.index_below
  rw [engineStep, if_neg (by omega), h.out_eq]
  simp only [he]

theorem progress_cells {s : State} {i : Instr} {m : Memory} {e : Engine} (h : Progress s i m)
    (hd : IterationDoes i s.inp s.latch.len { regs := s.regs, out := m } e) (a : Nat) :
    Memory.read e.out a =
      if a < s.latch.len ∧ visitOf i.category i.direction a < e.regs.i then
        some (outByte i.category i.direction (Memory.byteAt s.inp) a)
      else none := by
  rw [hd.cells, hd.index]
  simp only [h.cells, lt_add_stride_iff (stride_pos i.category i.direction) (visitOf_mod i.category i.direction a)
    h.index_aligned]
  by_cases h3 : a < s.latch.len <;> by_cases h4 : visitOf i.category i.direction a = s.regs.i <;> simp [h3, h4]

/-- Everything one engine step of an operation under way can do: it goes on, or it is Done with all cells written. -/
theorem progress_next {s : State} {i : Instr} {m : Memory} (h : Progress s i m) (hb : s.phase = .busy) :
    ∃ t m', engineStep (iterationOf i) s = .next t ∧ t.out = some m' ∧
      t = { s with regs := t.regs, out := some m', phase := t.phase, err := t.err } ∧
      t.regs.i = s.regs.i + stride i.category i.direction ∧
      (Memory.wf m = true → Memory.wf m' = true) ∧
      (∀ a b, Memory.read m a = some b → Memory.read m' a = some b) ∧
      ((t.phase = .busy ∧ t.err = s.err ∧ t.regs.i < s.latch.len ∧ Progress t i m') ∨
       (t.phase = .done ∧ t.err = .none ∧ t.regs.i = s.latch.len ∧ ∀ a, Memory.read m' a =
          if a < s.latch.len then some (outByte i.category i.direction (Memory.byteAt s.inp) a) else none)) := by
  obtain ⟨e, he, hd⟩ := progress_step h
  have hcell := progress_cells h hd
  have hindex : e.regs.i = s.regs.i + stride i.category i.direction := hd.index
  refine ⟨_, e.out, he, by simp, ?_, by simpa using hindex, hd.wf, ?_, ?_⟩
  · unfold State.completeIfAllDone State.putEngine State.setRegs State.setOut State.setStatus; split <;> rfl
  · intro a b hab
    rw [hcell a, hindex]
    rw [h.cells] at hab
    split at hab
    · next hc => rw [if_pos ⟨hc.1, Nat.lt_of_lt_of_le hc.2 (Nat.le_add_right ..)⟩]; exact hab
    · cases hab
  · have hp := stride_pos i.category i.direction
    have hl := lt_add_stride_iff hp (len_mod_stride h.length_ok) h.index_aligned
    have hbelow := h.index_below
    by_cases hlt : s.latch.len ≤ e.regs.i
    · right
      have heq : e.regs.i = s.latch.len := by
        have h1 : ¬ s.latch.len < s.regs.i + stride i.category i.direction := by rw [hl]; omega
        omega
      refine ⟨by simp [State.completeIfAllDone_phase, hlt], by simp [State.completeIfAllDone_err, hlt],
        by simpa using heq, fun a => ?_⟩
      rw [hcell a, heq]
      by_cases ha : a < s.latch.len
      · rw [if_pos ⟨ha, visitOf_lt h.length_ok ha⟩, if_pos ha]
      · rw [if_neg (by tauto), if_neg ha]
    · left
      refine ⟨by simp [State.completeIfAllDone_phase, hlt, hb], by simp [State.completeIfAllDone_err, hlt],
        by simp; omega, ?_⟩
      constructor
      · simp
      · simpa using h.length_ok
      · simpa using h.supplied
      · simp; omega
      · simp [hindex, h.index_aligned]
      · intro a; simpa using hcell a
      · intro hc; simpa using hd.collected hc

/-- The engine, left to itself for as many steps as indexes remain, ends Done with all cells right. -/
theorem progress_run {i : Instr} (k : Nat) (s : State) (m : Memory) (h : Progress s i m) (hb : s.phase = .busy)
    (hk : s.latch.len - s.regs.i ≤ k) :
    ∃ t m', engineRun (iterationOf i) k s = .next t ∧
      t = { s with regs := t.regs, out := some m', phase := .done, err := .none } ∧
      (Memory.wf m = true → Memory.wf m' = true) ∧
      ∀ a, Memory.read m' a =
        if a < s.latch.len then some (outByte i.category i.direction (Memory.byteAt s.inp) a) else none := by
  induction k generalizing s m with
  | zero => have := h.index_below; omega
  | succ k ih =>
    obtain ⟨t, m', he, ho, ht, hi, hwf, -, hcase⟩ := progress_next h hb
    have hp := stride_pos i.category i.direction
    rcases hcase with ⟨hph, herr, hlt, hrun⟩ | ⟨hph, herr, heq, hall⟩
    · have hl : t.latch = s.latch := by rw [ht]
      have hin : t.inp = s.inp := by rw [ht]
      obtain ⟨u, m'', he', hu, hwf', hall'⟩ := ih t m' hrun hph (by rw [hl]; omega)
      refine ⟨u, m'', ?_, ?_, fun hw => hwf' (hwf hw), ?_⟩
      · rw [engineRun, he]; simp only [hph, if_true]; exact he'
      · rw [hu, ht]
      · intro a; rw [hall' a, hl, hin]
    · refine ⟨t, m', ?_, ?_, hwf, hall⟩
      · rw [engineRun, he]; simp [hph]
      · rw [← hph, ← herr]; exact ht

/-- A Start that passes its checks puts the operation under way. -/
theorem progress_start {i : Instr} {s : State} (hl : lengthOk i.category i.direction s.len = true)
    (hc : Memory.covers s.inp s.len = true) : Progress s.beginStart.beginOperation i [] := by
  constructor
  · rfl
  · exact hl
  · exact hc
  · simpa using ((lengthOk_iff ..).1 hl).1
  · simp
  · intro a; simp
  · intro _ j hj; simp at hj

/-- Being under way is a matter of OUT, IN, what was latched and the working registers alone. -/
theorem Progress.congr {s t : State} {i : Instr} {m : Memory} (h : Progress s i m) (ho : t.out = s.out)
    (hi : t.inp = s.inp) (hl : t.latch = s.latch) (hr : t.regs = s.regs) : Progress t i m := by
  constructor
  · rw [ho]; exact h.out_eq
  · rw [hl]; exact h.length_ok
  · rw [hi, hl]; exact h.supplied
  · rw [hr, hl]; exact h.index_below
  · rw [hr]; exact h.index_aligned
  · rw [hi, hl, hr]; exact h.cells
  · rw [hi, hr]; exact h.collected

/-- In phase Busy with the host looking in, an operation is one engine step. -/
theorem exec_busy {i : Instr} {s : State} (hb : s.phase = .busy) (hw : s.watch = true) :
    exec i s = engineStep (iterationOf i) s := by
  rw [exec_eq_operate, operate, if_pos hb, engineTurn, hw]; rfl

/-- In phase Busy without it, an operation is the engine's run. -/
theorem exec_busy_unwatched {i : Instr} {s : State} (hb : s.phase = .busy) (hw : s.watch = false) :
    exec i s = engineRun (iterationOf i) s.latch.len s := by
  rw [exec_eq_operate, operate, if_pos hb, engineTurn, hw]; rfl

end Sys2Proof.Machine
end

