-- ==== Sys2Proof/Laws/Transcode.lean ====
section
/-! SUPPORT. The function `transcode`: its bytes by offset, what of the input each depends on, and its output as a buffer. -/

namespace Sys2Proof.Machine

theorem transcode_ok {bs : List Byte} {c : Category} {d : Direction} (h : lengthOk c d bs.length = true) :
    transcode bs c d = .ok ((List.range bs.length).map (outByte c d (byteAt bs))) := by simp [transcode, h]

theorem byteAt_map (n : Nat) (f : Nat → Byte) {a : Nat} (h : a < n) : byteAt ((List.range n).map f) a = f a := by
  simp [byteAt, h]

theorem planarDecByte_group (f : Nat → Byte) {g k : Nat} (hg : g % 4 = 0) (hk : k < 4) :
    planarDecByte f (g + k) = sprDecUnit (f g) (f (g + 1)) (f (g + 2)) (f (g + 3)) k := by
  have : clearLow 2 (g + k) = g := by rw [clearLow_eq]; omega
  rw [planarDecByte, and_three, this, show (g + k) % 4 = k by omega]

theorem planarEncByte_group (f : Nat → Byte) {g k : Nat} (hg : g % 4 = 0) (hk : k < 4) :
    planarEncByte f (encPlace g k) = sprEncUnit (f g) (f (g + 1)) (f (g + 2)) (f (g + 3)) k := by
  have hx := xor_destXor_mod_four hg
  rw [encPlace_eq _ hk]
  have : clearLow 2 ((g ^^^ destXor) + k) = g ^^^ destXor := by rw [clearLow_eq]; omega
  rw [planarEncByte, and_three, this, xor_destXor_self, show ((g ^^^ destXor) + k) % 4 = k by omega]

theorem planarDecByte_congr {f f' : Nat → Byte} (j : Nat)
    (h : ∀ k < 4, f (clearLow 2 j + k) = f' (clearLow 2 j + k)) : planarDecByte f j = planarDecByte f' j := by
  have h0 := h 0 (by decide)
  simp only [Nat.add_zero] at h0
  simp only [planarDecByte, h0, h 1 (by decide), h 2 (by decide), h 3 (by decide)]

theorem planarEncByte_congr {f f' : Nat → Byte} (j : Nat)
    (h : ∀ k < 4, f ((clearLow 2 j ^^^ destXor) + k) = f' ((clearLow 2 j ^^^ destXor) + k)) :
    planarEncByte f j = planarEncByte f' j := by
  have h0 := h 0 (by decide)
  simp only [Nat.add_zero] at h0
  simp only [planarEncByte, h0, h 1 (by decide), h 2 (by decide), h 3 (by decide)]

/-- An output byte below an accepted length depends on the input bytes below it alone. -/
theorem outByte_congr (c : Category) (d : Direction) {f f' : Nat → Byte} {n j : Nat} (hn : lengthOk c d n = true)
    (hj : j < n) (h : ∀ a < n, f a = f' a) : outByte c d f j = outByte c d f' j := by
  have hm := ((lengthOk_iff ..).1 hn).2
  have dec : n % 4 = 0 → planarDecByte f j = planarDecByte f' j := fun hm =>
    planarDecByte_congr j fun k hk => h _ (by rw [clearLow_eq]; omega)
  have enc : n % 128 = 0 → planarEncByte f j = planarEncByte f' j := fun hm =>
    planarEncByte_congr j fun k hk => h _ (by
      have := xor_destXor_lt hm (show clearLow 2 j < n by rw [clearLow_eq]; omega) (clearLow_two_mod j)
      omega)
  cases c <;> cases d <;> simp only [granule, Config.unitFix, Config.unitSpr, Config.blockSprEnc] at hm
  · simp only [outByte]; rw [h _ (encOf_lt hm hj)]
  · simp only [outByte]; rw [h _ (decSrc_lt hm hj)]
  · exact enc hm
  · exact dec hm
  · exact enc hm
  · exact dec hm

/-- A canonical buffer whose cells are exactly those below `n` is the list of them. -/
theorem Memory.eq_zip_of_read {m : Memory} {n : Nat} {f : Nat → Byte} (hw : Memory.wf m = true)
    (h : ∀ a, Memory.read m a = if a < n then some (f a) else none) :
    m = (List.range n).zip ((List.range n).map f) := by
  have gen : ∀ k n : Nat,
      (∀ a, Memory.read ((List.range' k n).map fun a => (a, f a)) a =
        if k ≤ a ∧ a < k + n then some (f a) else none) ∧
      Memory.wf ((List.range' k n).map fun a => (a, f a)) = true ∧
      ∀ c ∈ ((List.range' k n).map fun a => (a, f a)), k ≤ c.1 := by
    intro k n
    induction n generalizing k with
    | zero => exact ⟨fun a => by simp, rfl, by simp⟩
    | succ n ih =>
      obtain ⟨h1, h2, h3⟩ := ih (k + 1)
      simp only [List.range'_succ, List.map_cons]
      refine ⟨fun a => ?_, (Memory.wf_cons ..).2 ⟨fun c hc => Nat.lt_of_succ_le (h3 c hc), h2⟩, ?_⟩
      · rw [Memory.read_cons, h1]
        by_cases ha : a = k
        · subst ha; simp
        · rw [if_neg ha]; congr 1; simp; omega
      · intro c hc
        rcases List.mem_cons.1 hc with rfl | hc
        · exact Nat.le_refl _
        · have := h3 c hc; omega
  have e : (List.range n).zip ((List.range n).map f) = (List.range' 0 n).map fun a => (a, f a) := by
    rw [List.range_eq_range']
    exact (List.map_prod_left_eq_zip ..).symm
  rw [e]
  obtain ⟨h1, h2, _⟩ := gen 0 n
  refine Memory.ext_of_wf hw h2 fun a => ?_
  rw [h, h1]; simp

end Sys2Proof.Machine
end

