-- ==== Sys2Proof/Laws/Turn.lean ====
section
/-! SUPPORT. Everything a step can do, once for phase Busy and once for the other phases; the statements about a step cite these and
never unfold `step`. -/

namespace Sys2Proof.Machine

theorem fetch_of_decode {w : Byte} {i : Instr} (h : decode w = .ok i) : fetch (some w) = some i := by simp [fetch, h]

/-- All a step can do in phase Busy. -/
theorem step_busy_cases (s : State) (hb : s.phase = .busy) :
    (∃ ms, s.pending = .readStatus :: ms ∧ step s = .next ((s.setPending ms).see (.status s.status))) ∨
    (∃ ms, s.pending = .reset :: ms ∧ step s = .next (s.setPending ms).hostReset) ∨
    (∃ b ms, s.pending = .watch b :: ms ∧ step s = .next ((s.setPending ms).setWatch b)) ∨
    (∃ ms, s.pending = .pass :: ms ∧ step s = busyTurn (s.setPending ms)) ∨
    step s = busyTurn s := by
  unfold step turn
  rw [if_pos hb]
  unfold turnInBusy
  split
  · next ms h => exact .inl ⟨ms, h, rfl⟩
  · next ms h => exact .inr (.inl ⟨ms, h, rfl⟩)
  · next b ms h => exact .inr (.inr (.inl ⟨b, ms, h, rfl⟩))
  · next ms h => exact .inr (.inr (.inr (.inl ⟨ms, h, rfl⟩)))
  · exact .inr (.inr (.inr (.inr rfl)))

theorem busyTurn_keeps {s t : State} (hb : s.phase = .busy) (h : busyTurn s = .next t) : EngineKeeps s t := by
  unfold busyTurn at h
  split at h
  · rw [exec_eq_operate, operate, if_pos hb] at h; exact engineTurn_frame h
  · cases h

theorem busyTurn_of_fetch {s : State} {i : Instr} (h : fetch s.latch.cmd = some i) : busyTurn s = exec i s := by
  simp [busyTurn, h]

/-- In phase Busy with no move pending, or one that waits, the step is the engine's turn. -/
theorem step_of_waits {s : State} (hb : s.phase = .busy) (hp : ∀ m ∈ s.pending.head?, m.waits = true) :
    step s = busyTurn s := by
  rcases step_busy_cases s hb with ⟨ms, h, _⟩ | ⟨ms, h, _⟩ | ⟨b, ms, h, _⟩ | ⟨ms, h, _⟩ | h
  · rw [h] at hp; exact absurd (hp _ rfl) (by simp [HostMove.waits])
  · rw [h] at hp; exact absurd (hp _ rfl) (by simp [HostMove.waits])
  · rw [h] at hp; exact absurd (hp _ rfl) (by simp [HostMove.waits])
  · rw [h] at hp; exact absurd (hp _ rfl) (by simp [HostMove.waits])
  · exact h

/-- The effects a host's move `m`, taken from state `s`, can have outside phase Busy when it is answered with a next state. -/
inductive HostEffect (s : State) : HostMove → State → Prop where
  | writeCmd (w : Byte) : HostEffect s (.writeCmd w) (s.setCmd w)
  | writeLen (n : Nat) : HostEffect s (.writeLen n) (s.setLen n)
  | writeIn (a : Nat) (bs : List Byte) : HostEffect s (.writeIn a bs) (s.setInp (Memory.writeBytes s.inp a bs))
  | copy (m : Memory) (hd : s.phase = .done) (ho : s.out = some m) :
      HostEffect s .copyOutToIn (s.setInp (Memory.writeBytes s.inp 0 (Memory.bytes m)))
  | operation (i : Instr) (t : State) (hf : fetch s.cmd = some i) (he : exec i s = .next t) : HostEffect s .start t
  | usage (hf : fetch s.cmd = none) : HostEffect s .start s.startUsage
  | see (m : HostMove) (x : Seen) : HostEffect s m (s.see x)
  | reset : HostEffect s .reset s.hostReset
  | watch (on : Bool) : HostEffect s (.watch on) (s.setWatch on)
  | nothing (m : HostMove) : HostEffect s m s

theorem hostMove_next {m : HostMove} {s t : State} (h : hostMove m s = .next t) : HostEffect s m t := by
  cases m
  case writeCmd w => cases h; exact .writeCmd w
  case writeLen n => cases h; exact .writeLen n
  case writeIn a bs => cases h; exact .writeIn a bs
  case copyOutToIn =>
    simp only [hostMove, copyOut] at h
    split at h
    · next o hd ho => cases h; exact .copy o hd ho
    · cases h
  case start =>
    simp only [hostMove, startMove] at h
    split at h
    · next i hi => exact .operation i t hi h
    · next hi => cases h; exact .usage hi
  case readStatus => cases h; exact .see _ _
  case readLen =>
    simp only [hostMove, readLen] at h
    split at h
    · cases h; exact .see _ _
    · cases h
  case readOut a =>
    simp only [hostMove, readOut] at h
    split at h
    · split at h
      · cases h; exact .see _ _
      · cases h
    · cases h
  case reset => cases h; exact .reset
  case watch b => cases h; exact .watch b
  case pass => cases h; exact .nothing _
  case wait => cases h; exact .nothing _

/-- All a step can do outside phase Busy with a next state: nothing, where the host has no move, or the host's move. -/
theorem step_outside_cases {s t : State} (hb : s.phase ≠ .busy) (h : step s = .next t) :
    (s.pending = [] ∧ t = s) ∨ ∃ m ms, s.pending = m :: ms ∧ HostEffect (s.setPending ms) m t := by
  unfold step turn at h
  rw [if_neg hb] at h
  unfold turnOutsideBusy at h
  split at h
  · next hp => cases h; exact .inl ⟨hp, rfl⟩
  · next m ms hp => exact .inr ⟨m, ms, hp, hostMove_next h⟩

/-- One step more of a run. -/
theorem run_succ {s t : State} {k : Nat} (h : step s = .next t) :
    Host.Core.run core (k + 1) s = Host.Core.run core k t := by
  have hc : core.step s = .next t := h
  simp only [Host.Core.run, hc]

end Sys2Proof.Machine
end

