-- ==== Sys2Proof/Laws/Workers.lean ====
section
/-! SUPPORT. Several workers: what a pool keeps from Start on, under any assignment and any interleaving, and when it has finished. -/

namespace Sys2Proof.Machine

/-! ### Putting a pool into the state, field by field -/

@[simp] theorem State.putPool_inp (s : State) (p : Pool) : (s.putPool p).inp = s.inp := by
  unfold State.putPool; split <;> rfl
@[simp] theorem State.putPool_len (s : State) (p : Pool) : (s.putPool p).len = s.len := by
  unfold State.putPool; split <;> rfl
@[simp] theorem State.putPool_cmd (s : State) (p : Pool) : (s.putPool p).cmd = s.cmd := by
  unfold State.putPool; split <;> rfl
@[simp] theorem State.putPool_latch (s : State) (p : Pool) : (s.putPool p).latch = s.latch := by
  unfold State.putPool; split <;> rfl
@[simp] theorem State.putPool_regs (s : State) (p : Pool) : (s.putPool p).regs = s.regs := by
  unfold State.putPool; split <;> rfl
@[simp] theorem State.putPool_failures (s : State) (p : Pool) : (s.putPool p).failures = s.failures := by
  unfold State.putPool; split <;> rfl
@[simp] theorem State.putPool_pending (s : State) (p : Pool) : (s.putPool p).pending = s.pending := by
  unfold State.putPool; split <;> rfl
@[simp] theorem State.putPool_watch (s : State) (p : Pool) : (s.putPool p).watch = s.watch := by
  unfold State.putPool; split <;> rfl
@[simp] theorem State.putPool_seen (s : State) (p : Pool) : (s.putPool p).seen = s.seen := by
  unfold State.putPool; split <;> rfl
@[simp] theorem State.putPool_out (s : State) (p : Pool) : (s.putPool p).out = some p.out := by
  unfold State.putPool; split <;> rfl

theorem State.putPool_phase (s : State) (p : Pool) :
    (s.putPool p).phase = if p.finished = true then .done else s.phase := by
  unfold State.putPool; split <;> rfl

theorem State.putPool_err (s : State) (p : Pool) :
    (s.putPool p).err = if p.finished = true then .none else s.err := by
  unfold State.putPool; split <;> rfl

/-- What may follow a visit in a worker's list: the next index of the same item, or the base of an item. -/
def NextOk (v w : Nat) : Prop := w = v + 1 ∨ w % 4 = 0

/-- A worker whose visits are good, and whose INDEXES holds what the next one needs. -/
structure WorkerOk (i : Instr) (inp : Memory) (n : Nat) (w : Worker) : Prop where
  below : ∀ v ∈ w.visits, v < n ∧ v % stride i.category i.direction = 0
  chain : collects i.category i.direction = true → List.IsChain NextOk w.visits
  head : collects i.category i.direction = true → ∀ v vs, w.visits = v :: vs →
    Collected inp w.regs.indexes v (v % 4)

/-- A pool under way: what it has written is right, and what no worker has still to visit is written. -/
structure PoolOk (i : Instr) (p : Pool) : Prop where
  workers : ∀ w ∈ p.workers, WorkerOk i p.inp p.n w
  right : ∀ a b, Memory.read p.out a = some b →
    a < p.n ∧ b = outByte i.category i.direction (Memory.byteAt p.inp) a
  all : ∀ a < p.n, (∀ w ∈ p.workers, visitOf i.category i.direction a ∉ w.visits) →
    Memory.read p.out a = some (outByte i.category i.direction (Memory.byteAt p.inp) a)
  wf : Memory.wf p.out = true

/-- The visits each worker has still to make. -/
def Pool.remaining (p : Pool) : List (List Nat) := p.workers.map Worker.visits

/-- Everything a turn of a worker can do to a pool under way. -/
theorem poolTurn_ok {i : Instr} {p : Pool} (h : PoolOk i p) (hl : lengthOk i.category i.direction p.n = true)
    (hc : Memory.covers p.inp p.n = true) (k : Nat) :
    ∃ p', poolTurn (iterationOf i) k p = .ok p' ∧ PoolOk i p' ∧ p'.inp = p.inp ∧ p'.n = p.n ∧
      p'.remaining = p.remaining.modify k List.tail := by
  unfold poolTurn
  split
  · next hw =>
    refine ⟨p, rfl, h, rfl, rfl, ?_⟩
    rw [List.modify_eq_set_getElem?]
    simp [Pool.remaining, hw]
  · next w hw =>
    obtain ⟨hk, hget⟩ := List.getElem?_eq_some_iff.1 hw
    split
    · next hv =>
      refine ⟨p, rfl, h, rfl, rfl, ?_⟩
      refine List.ext_getElem (by simp) fun j h1 h2 => ?_
      rw [List.getElem_modify]
      split
      · next hjk => subst hjk; simp [Pool.remaining, hget, hv]
      · rfl
    · next v vs hv =>
      have hmem : w ∈ p.workers := by rw [← hget]; exact List.getElem_mem hk
      have hok := h.workers w hmem
      obtain ⟨hvn, hva⟩ := hok.below v (by rw [hv]; simp)
      obtain ⟨e, he, hd⟩ := iteration_does i { regs := { w.regs with i := v }, out := p.out } hl hc hvn hva
        (fun hcol => hok.head hcol v vs hv)
      refine ⟨{ p with out := e.out, workers := p.workers.set k { regs := e.regs, visits := vs } }, by rw [he]; rfl,
        ?_, rfl, rfl, ?_⟩
      swap
      · refine List.ext_getElem (by simp [Pool.remaining]) fun j h1 h2 => ?_
        rw [List.getElem_modify]
        split
        · next hjk => subst hjk; simp [Pool.remaining, hget, hv]
        · next hjk => simp [Pool.remaining, List.getElem_set_ne hjk]
      have hcell := hd.cells
      simp only at hcell
      constructor
      · intro w' hw'
        rcases List.mem_or_eq_of_mem_set hw' with hw' | rfl
        · exact h.workers w' hw'
        · constructor
          · intro x hx; exact hok.below x (by rw [hv]; simp only at hx; simp [hx])
          · intro hcol
            have := hok.chain hcol
            rw [hv] at this
            exact List.IsChain.tail this
          · intro hcol x xs hx
            simp only at hx
            have hch := hok.chain hcol
            rw [hv, hx] at hch
            have hn : NextOk v x := by simp at hch; exact hch.1
            have hcl := hd.collected hcol
            have hi := hd.index
            have hs : stride i.category i.direction = 1 := by cases i <;> first | rfl | cases hcol
            simp only [hs] at hi
            rcases hn with rfl | h4
            · rw [hi] at hcl; exact hcl
            · rw [h4]; intro j hj; omega
      · intro a b hab
        simp only at hab
        rw [hcell] at hab
        split at hab
        · next hh => cases hab; exact ⟨hh.1, rfl⟩
        · exact h.right a b hab
      · intro a ha hall
        simp only at hall ⊢
        rw [hcell]
        by_cases hva : visitOf i.category i.direction a = v
        · rw [if_pos ⟨ha, hva⟩]
        · rw [if_neg (by tauto)]
          apply h.all a ha
          intro w' hw' hin
          obtain ⟨k', hk', rfl⟩ := List.getElem_of_mem hw'
          by_cases hkk : k' = k
          · subst hkk
            rw [hget, hv] at hin
            rcases List.mem_cons.1 hin with hx | hx
            · exact hva hx
            · exact hall _ (List.mem_set hk _) hx
          · refine hall _ ?_ hin
            refine List.mem_iff_getElem.2 ⟨k', by simpa using hk', ?_⟩
            rw [List.getElem_set_ne (by omega)]
      · exact hd.wf h.wf

/-- A run of a pool under way succeeds, keeps it under way, and takes from each worker as many visits as it had turns. -/
theorem poolRun_ok {i : Instr} (schedule : List Nat) {p : Pool} (h : PoolOk i p)
    (hl : lengthOk i.category i.direction p.n = true) (hc : Memory.covers p.inp p.n = true) :
    ∃ p', poolRun (iterationOf i) schedule p = .ok p' ∧ PoolOk i p' ∧ p'.inp = p.inp ∧ p'.n = p.n ∧
      ∀ k, p'.remaining[k]? = (p.remaining[k]?).map (List.drop (schedule.count k)) := by
  induction schedule generalizing p with
  | nil => exact ⟨p, rfl, h, rfl, rfl, fun k => by cases p.remaining[k]? <;> simp⟩
  | cons k ks ih =>
    obtain ⟨p1, h1, h2, h3, h4, h5⟩ := poolTurn_ok h hl hc k
    obtain ⟨p2, g1, g2, g3, g4, g5⟩ := ih h2 (by rw [h4]; exact hl) (by rw [h3, h4]; exact hc)
    refine ⟨p2, by rw [poolRun, h1]; exact g1, g2, g3.trans h3, g4.trans h4, fun j => ?_⟩
    rw [g5, h5, List.getElem?_modify, List.count_cons]
    by_cases hj : k = j
    · subst hj; simp [Function.comp_def, ← List.drop_one, List.drop_drop, Nat.add_comm]
    · simp [hj]

theorem itemVisits_chain {i : Instr} (hcol : collects i.category i.direction = true) (bs : List Nat)
    (h : ∀ b ∈ bs, b % 4 = 0) :
    List.IsChain NextOk (bs.flatMap (itemVisits i.category i.direction)) ∧
      ∀ v vs, bs.flatMap (itemVisits i.category i.direction) = v :: vs → v % 4 = 0 := by
  induction bs with
  | nil => simp
  | cons b bs ih =>
    obtain ⟨h1, h2⟩ := ih fun x hx => h x (by simp [hx])
    have hiv : itemVisits i.category i.direction b = [b, b + 1, b + 2, b + 3] := by
      cases i <;> first
        | (exact absurd hcol (by decide))
        | simp [itemVisits, unitSize, stride, Instr.category, Instr.direction, Config.unitSpr, List.range_succ]
    have hb := h b (by simp)
    rw [List.flatMap_cons, hiv]
    constructor
    · generalize hr : bs.flatMap (itemVisits i.category i.direction) = r at *
      simp only [List.cons_append, List.nil_append, List.isChain_cons_cons]
      refine ⟨.inl rfl, .inl rfl, .inl rfl, ?_⟩
      cases r with
      | nil => simp
      | cons v vs => exact List.isChain_cons_cons.2 ⟨.inr (h2 v vs rfl), h1⟩
    · intro v vs hv; simp at hv; rw [← hv.1]; exact hb

theorem mem_itemVisits {c : Category} {d : Direction} {b v : Nat} :
    v ∈ itemVisits c d b ↔ ∃ k < unitSize c / stride c d, b + k * stride c d = v := by simp [itemVisits]

theorem unitSize_pos (c : Category) : 0 < unitSize c := by cases c <;> decide

theorem stride_dvd_unitSize (i : Instr) : stride i.category i.direction ∣ unitSize i.category := by cases i <;> decide

theorem len_mod_unitSize {i : Instr} {n : Nat} (h : lengthOk i.category i.direction n = true) :
    n % unitSize i.category = 0 := by
  have := ((lengthOk_iff ..).1 h).2
  cases i <;> simp [granule, unitSize, Instr.category, Instr.direction, Config.unitFix, Config.unitSpr,
    Config.blockSprEnc] at this ⊢ <;> omega

theorem mem_workItems {c : Category} {n b : Nat} (h : b ∈ workItems c n) : b % unitSize c = 0 ∧ b < n := by
  simp only [workItems, List.mem_map, List.mem_range] at h
  obtain ⟨q, hq, rfl⟩ := h
  refine ⟨Nat.mul_mod_left .., ?_⟩
  calc q * unitSize c < (n / unitSize c) * unitSize c := Nat.mul_lt_mul_of_pos_right hq (unitSize_pos c)
    _ ≤ n := Nat.div_mul_le_self ..

/-- Every assignment of the work items puts the pool under way. -/
theorem poolStart_ok {i : Instr} {inp : Memory} {n : Nat} {asg : List (Regs × List Nat)}
    (hl : lengthOk i.category i.direction n = true)
    (hperm : (asg.flatMap Prod.snd).Perm (workItems i.category n)) : PoolOk i (poolStart i inp n asg) := by
  have hbase : ∀ a ∈ asg, ∀ b ∈ a.2, b % unitSize i.category = 0 ∧ b < n := fun a ha b hb =>
    mem_workItems (hperm.mem_iff.1 (List.mem_flatMap.2 ⟨a, ha, hb⟩))
  have hdiv := len_mod_unitSize hl
  have hus : unitSize i.category =
      (unitSize i.category / stride i.category i.direction) * stride i.category i.direction :=
    (Nat.div_mul_cancel (stride_dvd_unitSize i)).symm
  have hfour : collects i.category i.direction = true → ∀ a ∈ asg, ∀ b ∈ a.2, b % 4 = 0 := by
    intro hcol a ha b hb
    have := (hbase a ha b hb).1
    have hu : unitSize i.category = 4 := by cases i <;> first | (exact absurd hcol (by decide)) | rfl
    rwa [hu] at this
  constructor
  · intro w hw
    simp only [poolStart, List.mem_map] at hw
    obtain ⟨a, ha, rfl⟩ := hw
    constructor
    · intro v hv
      obtain ⟨b, hb, hv⟩ := List.mem_flatMap.1 hv
      obtain ⟨hb1, hb2⟩ := hbase a ha b hb
      obtain ⟨k, hk, rfl⟩ := mem_itemVisits.1 hv
      constructor
      · have : b + unitSize i.category ≤ n := by
          obtain ⟨p, hp⟩ := Nat.dvd_of_mod_eq_zero hb1
          obtain ⟨q, hq⟩ := Nat.dvd_of_mod_eq_zero hdiv
          rw [hp, hq] at hb2 ⊢
          have := Nat.lt_of_mul_lt_mul_left hb2
          rw [← Nat.mul_succ]
          exact Nat.mul_le_mul_left _ this
        have : k * stride i.category i.direction < unitSize i.category := by
          rw [hus]; exact Nat.mul_lt_mul_of_pos_right hk (stride_pos ..)
        show b + k * stride i.category i.direction < n
        omega
      · have : b % stride i.category i.direction = 0 :=
          Nat.mod_eq_zero_of_dvd ((stride_dvd_unitSize i).trans (Nat.dvd_of_mod_eq_zero hb1))
        simp [this]
    · exact fun hcol => (itemVisits_chain hcol _ (hfour hcol a ha)).1
    · intro hcol v vs hv
      rw [(itemVisits_chain hcol a.2 (hfour hcol a ha)).2 v vs hv]
      intro j hj; omega
  · intro a b hab; simp [poolStart] at hab
  · intro a ha hall
    exfalso
    simp only [poolStart] at ha hall
    have hv1 := visitOf_lt hl ha
    have hv2 := visitOf_mod i.category i.direction a
    generalize visitOf i.category i.direction a = v at *
    have hu := unitSize_pos i.category
    have hb : (v / unitSize i.category) * unitSize i.category ∈ workItems i.category n := by
      simp only [workItems, List.mem_map, List.mem_range]
      exact ⟨_, Nat.div_lt_div_of_lt_of_dvd (Nat.dvd_of_mod_eq_zero hdiv) hv1, rfl⟩
    obtain ⟨x, hx, hbx⟩ := List.mem_flatMap.1 (hperm.mem_iff.2 hb)
    refine hall _ (List.mem_map.2 ⟨x, hx, rfl⟩) (List.mem_flatMap.2 ⟨_, hbx, mem_itemVisits.2
      ⟨(v % unitSize i.category) / stride i.category i.direction, ?_, ?_⟩⟩)
    · rw [Nat.div_lt_iff_lt_mul (stride_pos ..), ← hus]; exact Nat.mod_lt _ hu
    · have : stride i.category i.direction ∣ v % unitSize i.category :=
        (Nat.dvd_mod_iff (stride_dvd_unitSize i)).2 (Nat.dvd_of_mod_eq_zero hv2)
      rw [Nat.div_mul_cancel this, Nat.mul_comm]; exact Nat.div_add_mod ..
  · rfl

/-- A pool under way that has finished has written exactly the cells below N, each with its byte. -/
theorem PoolOk.read_of_finished {i : Instr} {p : Pool} (h : PoolOk i p) (hf : p.finished = true) (a : Nat) :
    Memory.read p.out a =
      if a < p.n then some (outByte i.category i.direction (Memory.byteAt p.inp) a) else none := by
  split
  · next ha =>
    refine h.all a ha fun w hw hin => ?_
    have := List.all_eq_true.1 hf w hw
    simp at this; rw [this] at hin; cases hin
  · next ha =>
    cases hr : Memory.read p.out a with
    | none => rfl
    | some b => exact absurd (h.right a b hr).1 ha

/-- No worker is assigned more visits than there are bytes. -/
theorem poolStart_visits_le {i : Instr} {inp : Memory} {n : Nat} {asg : List (Regs × List Nat)}
    (hperm : (asg.flatMap Prod.snd).Perm (workItems i.category n)) {k : Nat} {vs : List Nat}
    (h : (poolStart i inp n asg).remaining[k]? = some vs) : vs.length ≤ n := by
  simp only [Pool.remaining, poolStart, List.map_map, List.getElem?_map, Option.map_eq_some_iff] at h
  obtain ⟨a, ha, rfl⟩ := h
  have hmem : a ∈ asg := List.mem_of_getElem? ha
  have h1 : a.2.length ≤ n / unitSize i.category := by
    have hle : a.2.length ≤ (asg.flatMap Prod.snd).length := by
      obtain ⟨xs, ys, rfl⟩ := List.append_of_mem hmem
      simp; omega
    rw [hperm.length_eq] at hle
    simpa [workItems] using hle
  have h2 : ∀ b, (itemVisits i.category i.direction b).length = unitSize i.category / stride i.category i.direction := by
    intro b; simp [itemVisits]
  simp only [Function.comp_apply, List.length_flatMap, h2, List.map_const', List.sum_replicate, smul_eq_mul]
  calc a.2.length * (unitSize i.category / stride i.category i.direction)
      ≤ (n / unitSize i.category) * unitSize i.category := Nat.mul_le_mul h1 (Nat.div_le_self ..)
    _ ≤ n := Nat.div_mul_le_self ..

theorem Pool.finished_iff (p : Pool) : p.finished = true ↔
    ∀ (k : Nat) (vs : List Nat), p.remaining[k]? = some vs → vs = [] := by
  simp only [Pool.finished, List.all_eq_true, List.isEmpty_iff, Pool.remaining, List.getElem?_map,
    Option.map_eq_some_iff]
  constructor
  · rintro h k vs ⟨w, hw, rfl⟩; exact h w (List.mem_of_getElem? hw)
  · intro h w hw
    obtain ⟨k, hk⟩ := List.getElem?_of_mem hw
    exact h k _ ⟨w, hk, rfl⟩

end Sys2Proof.Machine
end

