-- ==== Sys2Proof/Tests/Slice0.lean ====
section
/-! SUPPORT. Tests: the well-formedness smoke, decoding of words written out bit by bit from spec/30_encoding.md R80 and R81, single
steps against the vectors of spec/95_test_vectors.md, and a witness for the premises of each statement of Obligations.lean. -/

namespace Sys2Proof.Tests

open Sys2Proof.Machine

/-! ### Helpers -/

/-- A machine whose host has supplied `bs` as IN and LEN, and has still to make the moves `ms`. -/
def host (w : Option Byte) (bs : List Byte) (on : Bool) (ms : List HostMove) : State :=
  { State.reset with inp := Memory.writeBytes [] 0 bs, len := bs.length, cmd := w, watch := on, pending := ms }

/-- `n` zero bytes after `bs`. -/
def zerosAfter (bs : List Byte) (n : Nat) : List Byte := bs ++ List.replicate n 0

/-- The bytes of OUT from offset `a` on, `n` of them, after an outcome. -/
def outBytes (r : Host.Outcome State Fault Refusal) (a n : Nat) : List (Option Byte) :=
  match r with
  | .next t => (List.range n).map fun k => (t.out.getD []).read (a + k)
  | .fault _ => []
  | .refused _ => []

/-- STATUS after an outcome. -/
def statusAfter (r : Host.Outcome State Fault Refusal) : Option Byte :=
  match r with
  | .next t => some t.status
  | .fault _ => none
  | .refused _ => none

/-- The state after an outcome; reset where there is none. -/
def stateAfter (r : Host.Outcome State Fault Refusal) : State :=
  match r with
  | .next t => t
  | .fault _ => State.reset
  | .refused _ => State.reset

/-- The outcome is a next state. -/
def completes (r : Host.Outcome State Fault Refusal) : Bool :=
  match r with
  | .next _ => true
  | .fault _ => false
  | .refused _ => false

theorem next_of_completes {r : Host.Outcome State Fault Refusal} (h : completes r = true) : r = .next (stateAfter r) := by
  cases r <;> first | rfl | cases h

/-- The refusal of an outcome. -/
def refusalOf (r : Host.Outcome State Fault Refusal) : Option Refusal :=
  match r with
  | .next _ => none
  | .fault _ => none
  | .refused x => some x

/-! ### Well-formedness and decoding -/

theorem test_wf_refuses_reserved_bit : Command.wf { rsv := 1, dir := 1, cat := 2 } = false := by decide

theorem test_wf_refuses_category_three : Command.wf { rsv := 0, dir := 0, cat := 3 } = false := by decide

theorem test_wf_accepts : Command.wf { rsv := 0, dir := 1, cat := 2 } = true := by decide

theorem test_row_of_another_pair_is_another : Instr.ofPair .fix .decode ≠ .fixEnc := by decide

theorem test_instr_wf : ∀ i ∈ [Instr.fixEnc, .sprEnc, .cdsEnc, .fixDec, .sprDec, .cdsDec], i.wf = true := by decide

/-- Buffers out of order, or with an offset twice, are not canonical. -/
theorem test_memory_wf_refuses : Memory.wf [(1, 0), (0, 0)] = false ∧ Memory.wf [(1, 0), (1, 2)] = false ∧
    Memory.wf (Memory.write [(1, 0), (3, 0)] 2 7) = true := by decide

/-- RSV 00000, DIR 0, CAT 00. -/
theorem test_decode_fixEnc : decode 0b00000000#8 = .ok .fixEnc := by decide

/-- RSV 00000, DIR 0, CAT 01. -/
theorem test_decode_sprEnc : decode 0b00000001#8 = .ok .sprEnc := by decide

/-- RSV 00000, DIR 0, CAT 10. -/
theorem test_decode_cdsEnc : decode 0b00000010#8 = .ok .cdsEnc := by decide

/-- RSV 00000, DIR 1, CAT 00. -/
theorem test_decode_fixDec : decode 0b00000100#8 = .ok .fixDec := by decide

/-- RSV 00000, DIR 1, CAT 01. -/
theorem test_decode_sprDec : decode 0b00000101#8 = .ok .sprDec := by decide

/-- RSV 00000, DIR 1, CAT 10. -/
theorem test_decode_cdsDec : decode 0b00000110#8 = .ok .cdsDec := by decide

/-- CAT 11, either DIR, and each reserved bit. -/
theorem test_decode_refuses : decode 0b00000011#8 = .error .catIsThree ∧ decode 0b00000111#8 = .error .catIsThree ∧
    decode 0b00001000#8 = .error .rsvNotZero ∧ decode 0b00010100#8 = .error .rsvNotZero ∧
    decode 0b00100110#8 = .error .rsvNotZero ∧ decode 0b01000001#8 = .error .rsvNotZero ∧
    decode 0b10000101#8 = .error .rsvNotZero := by decide

theorem test_decodeTableWord : decodeTableWord 8 0x06 = some .cdsDec ∧ decodeTableWord 8 0x08 = none ∧
    decodeTableWord 16 0x06 = none ∧ decodeTableWord 8 0x100 = none := by decide

/-- The command words of any two instructions differ. -/
theorem test_words_do_not_overlap :
    ([Instr.fixEnc, .sprEnc, .cdsEnc, .fixDec, .sprDec, .cdsDec].map encode).Nodup := by decide

/-- The step after `withFetchWord` at reset runs the placed operation, which finds LEN = 0 (60_exceptions.md R200). -/
theorem test_withFetchWord_runs : ∀ i ∈ [Instr.fixEnc, .sprEnc, .cdsEnc, .fixDec, .sprDec, .cdsDec],
    step (State.reset.withFetchWord 8 (encode i).toNat) = exec i { State.reset with cmd := some (encode i) } := by
  intro i hi
  simp only [List.mem_cons, List.not_mem_nil, or_false] at hi
  rcases hi with rfl | rfl | rfl | rfl | rfl | rfl <;> rfl

/-! ### Single steps against 95_test_vectors.md -/

/-- Vector S2: IN[0] = 0x12, the rest zero: OUT[6] = 0x21. -/
theorem test_fixDec_S2 : outBytes (exec .fixDec (host none (zerosAfter [0x12] 31) false [])) 5 3 =
    [some 0x00, some 0x21, some 0x00] := by decide +kernel

/-- The matching encode vector: OUT[0x11] = 0x21. -/
theorem test_fixEnc_S2 : outBytes (exec .fixEnc (host none (zerosAfter [0x12] 31) false [])) 0x10 3 =
    [some 0x00, some 0x21, some 0x00] := by decide +kernel

/-- Vector S3: 80 00 00 00 gives 00 00 00 02. -/
theorem test_cdsDec_S3 : outBytes (exec .cdsDec (host none [0x80, 0x00, 0x00, 0x00] false [])) 0 4 =
    [some 0x00, some 0x00, some 0x00, some 0x02] := by decide +kernel

/-- 00 00 01 00: pixel 0, colour bit 3, so 80 00 00 00 (41_planar_sprite_codec.md R131, R133). -/
theorem test_sprDec_group : outBytes (exec .sprDec (host none [0x00, 0x00, 0x01, 0x00] false [])) 0 4 =
    [some 0x80, some 0x00, some 0x00, some 0x00] := by decide +kernel

/-- 41_planar_sprite_codec.md R151: IN[0..3] = 01 23 45 67 gives OUT[0x40..0x43] = 00 F0 CC AA. -/
theorem test_cdsEnc_group : outBytes (exec .cdsEnc (host none (zerosAfter [0x01, 0x23, 0x45, 0x67] 124) false [])) 0x3F 6 =
    [some 0x00, some 0x00, some 0xF0, some 0xCC, some 0xAA, some 0x00] := by decide +kernel

/-- 41_planar_sprite_codec.md R153, by the same vector. -/
theorem test_sprEnc_group : outBytes (exec .sprEnc (host none (zerosAfter [0x01, 0x23, 0x45, 0x67] 124) false [])) 0x3F 6 =
    [some 0x00, some 0x00, some 0xF0, some 0xCC, some 0xAA, some 0x00] := by decide +kernel

/-- A completed operation reads STATUS 0x02, a refused length 0x13, a reserved command 0x07 (10_state.md R26). -/
theorem test_status : statusAfter (exec .cdsDec (host none [0, 0, 0, 0] false [])) = some 0x02 ∧
    statusAfter (exec .cdsDec (host none [0, 0, 0] false [])) = some 0x13 ∧
    statusAfter (step (host (some 0x03) [0, 0, 0, 0] false [.start])) = some 0x07 := by decide

/-! ### Machines in each phase -/

/-- FIX.DEC just started on 32 zero bytes, the host looking in. -/
def fixBusy (w : Byte) (ms : List HostMove) : State := (host (some w) (List.replicate 32 0) true ms).beginStart.beginOperation

/-- A planar operation just started on `n` zero bytes, the host looking in. -/
def planarBusy (w : Byte) (n : Nat) (ms : List HostMove) : State :=
  (host (some w) (List.replicate n 0) true ms).beginStart.beginOperation

/-- CDS.DEC done on four zero bytes. -/
def planarDone (ms : List HostMove) : State :=
  { host (some 0x06) [0, 0, 0, 0] false ms with
    out := some [(0, 0), (1, 0), (2, 0), (3, 0)], phase := .done, latch := { cmd := some 0x06, len := 4 } }

/-- A Start with a reserved command. -/
def usageFailed (ms : List HostMove) : State := (host (some 0x03) [] false ms).startUsage

theorem fixBusy_inv (ms : List HostMove) : (fixBusy 0x04 ms).Inv where
  inp_wf := by change Memory.wf (Memory.writeBytes [] 0 (List.replicate 32 0)) = true; decide +kernel
  out_wf m h := by cases h; rfl
  no_output h := by rcases h with h | h <;> cases h
  running _ := ⟨.fixDec, [], rfl, rfl, rfl, progress_start (s := host (some 0x04) (List.replicate 32 0) true ms)
    (by change lengthOk .fix .decode 32 = true; decide)
    (by change Memory.covers (Memory.writeBytes [] 0 (List.replicate 32 0)) 32 = true; decide +kernel)⟩
  complete h := by cases h
  no_error _ := rfl
  error h := by cases h

/-- A started operation on zero bytes has the invariant. -/
theorem planarBusy_inv (w : Byte) (n : Nat) (ms : List HostMove) (i : Instr) (hd : decode w = .ok i)
    (hw : Memory.wf (planarBusy w n ms).inp = true) (hl : lengthOk i.category i.direction (planarBusy w n ms).len = true)
    (hc : Memory.covers (planarBusy w n ms).inp (planarBusy w n ms).len = true) : (planarBusy w n ms).Inv where
  inp_wf := hw
  out_wf m h := by cases h; rfl
  no_output h := by rcases h with h | h <;> cases h
  running _ := ⟨i, [], fetch_of_decode hd, rfl, rfl,
    progress_start (s := host (some w) (List.replicate n 0) true ms) hl hc⟩
  complete h := by cases h
  no_error _ := rfl
  error h := by cases h

/-- CDS.ENC on 128 zero bytes at I = 3, the last byte step of its first group. -/
def planarAtLast : State := (planarBusy 0x02 128 []).setRegs { State.reset.regs with i := 3 }

theorem planarAtLast_inv : planarAtLast.Inv where
  inp_wf := by decide +kernel
  out_wf m h := by cases h; rfl
  no_output h := by rcases h with h | h <;> cases h
  running _ := by
    refine ⟨.cdsEnc, [], rfl, rfl, rfl, ?_⟩
    constructor
    · rfl
    · decide +kernel
    · decide +kernel
    · decide +kernel
    · rfl
    · intro a
      rw [Memory.read_nil, if_neg]
      rintro ⟨_, h⟩
      exact Nat.not_lt.2 (Nat.le_add_left 3 (clearLow 2 a ^^^ destXor)) h
    · intro _
      unfold Collected
      decide +kernel
  complete h := by cases h
  no_error _ := rfl
  error h := by cases h

theorem planarDone_inv (ms : List HostMove) : (planarDone ms).Inv where
  inp_wf := by change Memory.wf [(0, 0), (1, 0), (2, 0), (3, 0)] = true; decide
  out_wf m h := by
    have : m = [(0, 0), (1, 0), (2, 0), (3, 0)] := by cases h; rfl
    rw [this]; decide
  no_output h := by rcases h with h | h <;> cases h
  running h := by cases h
  complete _ := by
    refine ⟨[(0, 0), (1, 0), (2, 0), (3, 0)], rfl, fun a => ?_⟩
    change _ = decide (a < 4)
    match a with
    | 0 => rfl
    | 1 => rfl
    | 2 => rfl
    | 3 => rfl
    | a + 4 => simp [Memory.read]
  no_error _ := rfl
  error h := by cases h

theorem usageFailed_inv (ms : List HostMove) : (usageFailed ms).Inv where
  inp_wf := by change Memory.wf [] = true; decide
  out_wf m h := by cases h
  no_output _ := rfl
  running h := by cases h
  complete h := by cases h
  no_error h := absurd rfl h
  error _ := ⟨.inl rfl, rfl⟩

/-! ### Witnesses: a concrete case that meets the premises of each statement, one for each clause -/

theorem witness_DecodeInvertsEncode : decode 0x06#8 = .ok .cdsDec := by decide

theorem witness_StatusWordPacksPhaseAndErr :
    (State.reset.phase = .idle ∧ State.reset.err = .none) ∧
    ((planarBusy 0x06 4 []).phase = .busy ∧ (planarBusy 0x06 4 []).err = .none) ∧
    ((planarDone []).phase = .done ∧ (planarDone []).err = .none) ∧
    ((host none [] false []).beginStart.raiseError .length).phase = .failed ∧
    ((host none [] false []).beginStart.raiseError .length).err = .length ∧
    (usageFailed []).phase = .failed ∧ (usageFailed []).err = .usage := by decide

/-- From phases Busy and Done. -/
theorem witness_HostResetWorksFromAnyPhase : (fixBusy 0x04 [.reset, .start]).pending = .reset :: [.start] ∧
    (planarDone [.reset]).pending = .reset :: [] := by decide

/-- CMD never written; CMD 0x03 and 0xFF, reserved. -/
theorem witness_ReservedCommandFailsWithUsage :
    ((host none [] false [.start]).phase ≠ .busy ∧ (host none [] false [.start]).pending = .start :: [] ∧
      (host none [] false [.start]).cmd = none) ∧
    ((planarDone [.start]).phase ≠ .busy ∧ (planarDone [.start]).pending = .start :: []) ∧
    (host (some 0x03) [] false [.start]).cmd = some 0x03 ∧
    (∀ i, encode i ≠ 0x03#8) ∧ ∀ i, encode i ≠ 0xFF#8 := by
  refine ⟨by decide, by decide, by decide, ?_, ?_⟩ <;> intro i <;> cases i <;> decide

/-- Lengths 0, 31 and 33; 3 and 5; 4, 127 and 132. -/
theorem witness_BadLengthFailsWithLengthError : State.reset.phase ≠ .busy ∧ State.reset.len = 0 ∧
    (∀ n ∈ [31, 33], n % 32 ≠ 0) ∧ (∀ n ∈ [3, 5], n % 4 ≠ 0) ∧ (∀ n ∈ [4, 127, 132], n % 128 ≠ 0) ∧
    (State.reset.setLen 33).len = 33 := by decide

/-- The last cell of IN is missing. -/
theorem witness_MissingInputHasNoStep :
    ((host none [0, 0, 0] false []).setLen 4).phase ≠ .busy ∧ lengthOk Instr.cdsDec.category Instr.cdsDec.direction 4 = true ∧
    ∃ a < 4, Memory.read ((host none [0, 0, 0] false []).setLen 4).inp a = none := by
  refine ⟨by decide, by decide, 3, by decide, by decide⟩

theorem witness_StartLeavesAnEmptyOutputAndBusy :
    (host none [0, 0, 0, 0] true []).Ready .sprDec ∧ (host none [0, 0, 0, 0] true []).watch = true :=
  ⟨⟨by decide, by decide, by decide⟩, by decide⟩

theorem witness_OperationsNeverFault : State.reset.phase ≠ .busy := by decide

theorem witness_FixIndexFunctionsPermuteTheBuffer : 64 % 32 = 0 ∧ decSrc 31 < 64 ∧ 63 < 64 := by decide

/-- The first and last lane of a group. -/
theorem witness_PlanarPlacementReadingsAgree : encPlace (clearLow 2 7) 0 = 0x44 ∧ encPlace (clearLow 2 7) 3 = 0x47 := by
  decide

/-- N = 4, where the places do not fit, and N = 128, where they do. -/
theorem witness_PlanarDestinationsFitExactlyBlocks : 0 < 4 ∧ 4 % 4 = 0 ∧ ¬ encPlace 0 0 < 4 ∧ 0 < 128 ∧ 128 % 4 = 0 ∧
    encPlace 0x3C 3 = 127 := by decide

/-- For FIX.DEC and FIX.ENC: a refused length, 33, and one unit. -/
theorem witness_Fix_operations :
    let s := host none (List.replicate 33 0) false []
    let u := host none (List.replicate 32 0) false []
    (s.phase ≠ .busy ∧ s.len % 32 ≠ 0) ∧
      u.phase ≠ .busy ∧ 0 < u.len ∧ u.len % 32 = 0 ∧ Memory.covers u.inp u.len = true ∧ u.watch = false := by
  decide +kernel

/-- For SPR.DEC and CDS.DEC: a refused length, 5, and one group. -/
theorem witness_planar_decode_operations :
    let s := host none (List.replicate 5 0) false []
    let u := host none (List.replicate 4 0) false []
    (s.phase ≠ .busy ∧ s.len % 4 ≠ 0) ∧
      u.phase ≠ .busy ∧ 0 < u.len ∧ u.len % 4 = 0 ∧ Memory.covers u.inp u.len = true ∧ u.watch = false := by
  decide +kernel

/-- For SPR.ENC and CDS.ENC: a refused length, 64, and one block. -/
theorem witness_planar_encode_operations :
    let s := host none (List.replicate 64 0) false []
    let u := host none (List.replicate 128 0) false []
    (s.phase ≠ .busy ∧ s.len % 128 ≠ 0) ∧
      u.phase ≠ .busy ∧ 0 < u.len ∧ u.len % 128 = 0 ∧ Memory.covers u.inp u.len = true ∧ u.watch = false := by
  decide +kernel

/-- The function answers a buffer on one group, and the error on five bytes. -/
theorem witness_ExecIsTranscode :
    let u := host none [0x80, 0, 0, 0] false []
    let s := host none [0, 0, 0, 0, 0] false []
    (u.phase ≠ .busy ∧ u.watch = false ∧ Memory.covers u.inp u.len = true ∧
      (transcode (Memory.take u.inp u.len) .cdSprite .decode).toOption = some [0, 0, 0, 2]) ∧
    s.phase ≠ .busy ∧ s.watch = false ∧ Memory.covers s.inp s.len = true ∧
      (transcode (Memory.take s.inp s.len) .cdSprite .decode).toOption = none := by decide +kernel

/-- The first step, and the last: I = 31 of 32. -/
theorem witness_FixStepWritesItsByte :
    let s := fixBusy 0x04 []
    let z := s.setRegs { s.regs with i := 31 }
    (s.phase = .busy ∧ s.watch = true ∧ s.out = some [] ∧ s.regs.i < s.latch.len ∧ s.latch.len % 32 = 0 ∧
      Memory.covers s.inp s.latch.len = true) ∧
    z.phase = .busy ∧ z.watch = true ∧ z.out = some [] ∧ z.regs.i < z.latch.len ∧ z.latch.len % 32 = 0 ∧
      Memory.covers z.inp z.latch.len = true := by decide +kernel

/-- The first group of eight bytes, and the last. -/
theorem witness_PlanarDecodeStepWritesItsGroup :
    let s := planarBusy 0x06 8 []
    let z := s.setRegs { s.regs with i := 4 }
    (s.phase = .busy ∧ s.watch = true ∧ s.out = some [] ∧ s.regs.i + 3 < s.latch.len ∧
      Memory.covers s.inp s.latch.len = true) ∧
    z.phase = .busy ∧ z.watch = true ∧ z.out = some [] ∧ z.regs.i + 3 < z.latch.len ∧
      Memory.covers z.inp z.latch.len = true := by decide +kernel

/-- The byte steps at 0 and 126. -/
theorem witness_PlanarEncodeStepCollectsItsByte :
    let s := planarBusy 0x02 128 []
    let z := s.setRegs { s.regs with i := 126 }
    (s.phase = .busy ∧ s.watch = true ∧ s.out = some [] ∧ s.regs.i < s.latch.len ∧ s.regs.i % 4 ≠ 3 ∧
      Memory.covers s.inp s.latch.len = true) ∧
    z.phase = .busy ∧ z.watch = true ∧ z.out = some [] ∧ z.regs.i < z.latch.len ∧ z.regs.i % 4 ≠ 3 ∧
      Memory.covers z.inp z.latch.len = true := by decide +kernel

/-- The first group of a block, and the last. -/
theorem witness_PlanarEncodeGroupIsWrittenAtItsPlace :
    let s := planarBusy 0x02 128 []
    let e : Engine := { regs := s.regs, out := [] }
    let z : Engine := { regs := { s.regs with i := 124 }, out := [] }
    128 % 128 = 0 ∧ Memory.covers s.inp 128 = true ∧ e.regs.i % 4 = 0 ∧ e.regs.i < 128 ∧
      z.regs.i % 4 = 0 ∧ z.regs.i < 128 := by decide +kernel

/-- A completed operation and a refused one. -/
theorem witness_OperationsLeaveTheHostsStateAlone :
    (∃ t, exec .cdsDec (host none [0, 0, 0, 0] false []) = .next t) ∧ ∃ t, exec .cdsDec State.reset = .next t :=
  ⟨⟨_, next_of_completes (by decide)⟩, ⟨_, next_of_completes (by decide)⟩⟩

theorem witness_OperationsLeaveOtherWorkingRegistersAlone :
    (∃ t, exec .fixDec (host none (List.replicate 32 0) false []) = .next t) ∧
    (∃ t, exec .sprDec (host none [0, 0, 0, 0] false []) = .next t) ∧
    ∃ t, exec .sprEnc (host none (List.replicate 128 0) false []) = .next t :=
  ⟨⟨_, next_of_completes (by decide +kernel)⟩, ⟨_, next_of_completes (by decide)⟩,
    ⟨_, next_of_completes (by decide +kernel)⟩⟩

/-- Each clause: one iteration in phase Busy, planar encode at a group's last byte. -/
theorem witness_BusyStepWritesOnlyAtItsOffsets :
    let s := fixBusy 0x04 []
    let d := planarBusy 0x06 4 []
    let e := (planarBusy 0x02 128 []).setRegs { State.reset.regs with i := 3 }
    (s.phase = .busy ∧ s.watch = true ∧ s.out = some [] ∧
      (∃ t, exec .fixDec s = .next t ∧ ∃ m', t.out = some m') ∧ ∃ t, exec .fixEnc s = .next t ∧ ∃ m', t.out = some m') ∧
    (d.phase = .busy ∧ d.watch = true ∧ d.out = some [] ∧ ∃ t, exec .cdsDec d = .next t ∧ ∃ m', t.out = some m') ∧
    e.phase = .busy ∧ e.watch = true ∧ e.out = some [] ∧ ∃ t, exec .cdsEnc e = .next t ∧ ∃ m', t.out = some m' := by
  refine ⟨⟨by decide, by decide, by decide, ⟨_, next_of_completes ?_, Option.isSome_iff_exists.1 ?_⟩,
    ⟨_, next_of_completes ?_, Option.isSome_iff_exists.1 ?_⟩⟩,
    ⟨by decide, by decide, by decide, ⟨_, next_of_completes ?_, Option.isSome_iff_exists.1 ?_⟩⟩,
    by decide, by decide, by decide, ⟨_, next_of_completes ?_, Option.isSome_iff_exists.1 ?_⟩⟩ <;> decide +kernel

/-- Start outside phase Busy; the engine's turn; a `pass` in phase Busy; a write that waits there. -/
theorem witness_StepRunsTheDecodedInstruction : decode 0x04#8 = .ok .fixDec ∧
    ((host (some 0x04) [] false [.start]).phase ≠ .busy ∧ (host (some 0x04) [] false [.start]).cmd = some 0x04 ∧
      (host (some 0x04) [] false [.start]).pending = .start :: []) ∧
    ((fixBusy 0x04 []).phase = .busy ∧ (fixBusy 0x04 []).latch.cmd = some 0x04 ∧ (fixBusy 0x04 []).pending = []) ∧
    (fixBusy 0x04 [.pass]).phase = .busy ∧ (fixBusy 0x04 [.pass]).latch.cmd = some 0x04 ∧
      (fixBusy 0x04 [.pass]).pending = .pass :: [] ∧
    (fixBusy 0x04 [.writeLen 64]).phase = .busy ∧ (fixBusy 0x04 [.writeLen 64]).latch.cmd = some 0x04 ∧
      (fixBusy 0x04 [.writeLen 64]).pending = .writeLen 64 :: [] ∧ (HostMove.writeLen 64).waits = true := by decide +kernel

theorem witness_HostWritesTakeEffect :
    (host none [] false [.writeCmd 0xFF]).phase ≠ .busy ∧
    (host none [] false [.writeCmd 0xFF]).pending = .writeCmd 0xFF :: [] ∧
    (usageFailed [.writeLen 32]).phase ≠ .busy ∧ (usageFailed [.writeLen 32]).pending = .writeLen 32 :: [] ∧
    (planarDone [.writeIn 3 [1, 2]]).phase ≠ .busy ∧ (planarDone [.writeIn 3 [1, 2]]).pending = .writeIn 3 [1, 2] :: [] := by
  decide

/-- The last byte of OUT, the offset after it, a phase that is not Done, and the copy there. -/
theorem witness_OutputIsReadOnlyInDone :
    ((planarDone [.readOut 3]).Inv ∧ (planarDone [.readOut 3]).phase = .done ∧ 3 < (planarDone [.readOut 3]).latch.len ∧
      (planarDone [.readOut 3]).pending = .readOut 3 :: []) ∧
    ((planarDone [.readOut 4]).Inv ∧ (planarDone [.readOut 4]).latch.len ≤ 4) ∧
    ((usageFailed [.readOut 0]).Inv ∧ (usageFailed [.readOut 0]).phase ≠ .busy ∧ (usageFailed [.readOut 0]).phase ≠ .done ∧
      (usageFailed [.readOut 0]).pending = .readOut 0 :: []) ∧
    (usageFailed [.copyOutToIn]).Inv ∧ (usageFailed [.copyOutToIn]).phase ≠ .busy ∧
      (usageFailed [.copyOutToIn]).phase ≠ .done ∧ (usageFailed [.copyOutToIn]).pending = .copyOutToIn :: [] :=
  ⟨⟨planarDone_inv _, by decide, by decide, by decide⟩, ⟨planarDone_inv _, by decide⟩,
    ⟨usageFailed_inv _, by decide, by decide, by decide⟩, usageFailed_inv _, by decide, by decide, by decide⟩

/-- STATUS in phase Busy, LEN in phases Failed and Done. -/
theorem witness_HostReadsGiveStatusAndLength : (fixBusy 0x04 [.readStatus]).pending = .readStatus :: [] ∧
    ((usageFailed [.readLen]).phase = .failed ∧ (usageFailed [.readLen]).pending = .readLen :: []) ∧
    (planarDone [.readLen]).phase = .done ∧ (planarDone [.readLen]).pending = .readLen :: [] := by decide

theorem witness_CopyMakesTheOutputTheNextInput : (planarDone [.copyOutToIn]).Inv ∧
    (planarDone [.copyOutToIn]).phase = .done ∧ (planarDone [.copyOutToIn]).pending = .copyOutToIn :: [] :=
  ⟨planarDone_inv _, by decide, by decide⟩

/-- The engine's turn, a waiting write, and a reset, all in phase Busy. -/
theorem witness_BusyKeepsInputAndCommand :
    (fixBusy 0x04 []).phase = .busy ∧ (∃ t, step (fixBusy 0x04 []) = .next t) ∧
    (∃ t, step (fixBusy 0x04 [.writeLen 64]) = .next t) ∧ ∃ t, step (fixBusy 0x04 [.reset]) = .next t :=
  ⟨by decide, ⟨_, next_of_completes (by decide +kernel)⟩, ⟨_, next_of_completes (by decide +kernel)⟩,
    ⟨_, next_of_completes (by decide +kernel)⟩⟩

/-- A step of a Start, from reset with LEN = 0, for the three statements about every step. -/
theorem witness_every_step : ∃ t, step (host (some 0x04) [] false [.start]) = .next t ∧
    t.failures = [.length] ∧ t.phase = .failed :=
  ⟨_, next_of_completes (by decide), by decide, by decide⟩

/-- A step without a failure, in a run without one. -/
theorem witness_FailureRecordIsKept : ∃ t, step (host (some 0x06) [0, 0, 0, 0] false [.start]) = .next t ∧ t.NoFailure := by
  refine ⟨_, next_of_completes (by decide), ?_⟩
  unfold State.NoFailure
  decide

/-- States of the invariant in phases Busy, Done and Failed, each with a step. -/
theorem witness_StepKeepsTheInvariant :
    ((fixBusy 0x04 []).Inv ∧ ∃ t, step (fixBusy 0x04 []) = .next t) ∧
    ((planarDone [.copyOutToIn]).Inv ∧ ∃ t, step (planarDone [.copyOutToIn]) = .next t) ∧
    (usageFailed [.start]).Inv ∧ ∃ t, step (usageFailed [.start]) = .next t :=
  ⟨⟨fixBusy_inv _, _, next_of_completes (by decide +kernel)⟩, ⟨planarDone_inv _, _, next_of_completes (by decide)⟩,
    usageFailed_inv _, _, next_of_completes (by decide)⟩

theorem witness_BusyNeverFails : (fixBusy 0x04 [.reset]).Inv ∧ (fixBusy 0x04 [.reset]).phase = .busy :=
  ⟨fixBusy_inv _, by decide⟩

/-- No move pending, and one that waits. -/
theorem witness_BusyReachesDone :
    ((fixBusy 0x04 []).Inv ∧ (fixBusy 0x04 []).phase = .busy ∧ ∀ m ∈ (fixBusy 0x04 []).pending.head?, m.waits = true) ∧
    (fixBusy 0x04 [.start]).Inv ∧ (fixBusy 0x04 [.start]).phase = .busy ∧
      ∀ m ∈ (fixBusy 0x04 [.start]).pending.head?, m.waits = true :=
  ⟨⟨fixBusy_inv _, by decide, by decide⟩, fixBusy_inv _, by decide, by decide⟩

theorem witness_WatchedRunEndsAsTheWholeStep :
    let s := host (some 0x06) [0, 0, 0, 0] false []
    s.Ready .cdsDec ∧ s.watch = false ∧ s.cmd = some 0x06 ∧ decode 0x06#8 = .ok .cdsDec ∧ s.pending = [] :=
  ⟨⟨by decide, by decide, by decide⟩, by decide, by decide, by decide, by decide⟩

/-- FIX.DEC with one byte written: I = 1 of 32. -/
def fixOneWritten : State :=
  { fixBusy 0x04 [] with out := some [(0, 0)], regs := { State.reset.regs with i := 1 } }

theorem fixOneWritten_inv : fixOneWritten.Inv where
  inp_wf := (fixBusy_inv []).inp_wf
  out_wf m h := by cases h; rfl
  no_output h := by rcases h with h | h <;> cases h
  running _ := by
    refine ⟨.fixDec, [(0, 0)], rfl, rfl, rfl, ?_⟩
    constructor
    · rfl
    · change lengthOk .fix .decode 32 = true; decide
    · change Memory.covers (Memory.writeBytes [] 0 (List.replicate 32 0)) 32 = true; decide +kernel
    · change 1 < 32; decide
    · rfl
    · intro a
      change _ = if a < 32 ∧ a < 1 then _ else none
      match a with
      | 0 => decide +kernel
      | a + 1 => simp [Memory.read]
    · intro h; cases h
  complete h := by cases h
  no_error _ := rfl
  error h := by cases h

/-- The second part: a cell already written. -/
theorem witness_OutputCellsAreWrittenOnce : fixOneWritten.Inv ∧ fixOneWritten.phase = .busy ∧
    fixOneWritten.out = some [(0, 0)] ∧ Memory.read [(0, 0)] 0 = some 0 ∧
    ∃ t, step fixOneWritten = .next t ∧ ∃ m', t.out = some m' :=
  ⟨fixOneWritten_inv, by decide, by decide, by decide,
    ⟨_, next_of_completes (by decide +kernel), Option.isSome_iff_exists.1 (by decide +kernel)⟩⟩

/-- The first part, clause by clause. -/
theorem witness_OutputCellsAreWrittenOnce_offsets :
    (fixOneWritten.Inv ∧ fixOneWritten.phase = .busy ∧ fetch fixOneWritten.latch.cmd = some .fixDec) ∧
    ((planarBusy 0x00 32 []).Inv ∧ (planarBusy 0x00 32 []).phase = .busy ∧
      fetch (planarBusy 0x00 32 []).latch.cmd = some .fixEnc) ∧
    ((planarBusy 0x06 4 []).Inv ∧ (planarBusy 0x06 4 []).phase = .busy ∧
      fetch (planarBusy 0x06 4 []).latch.cmd = some .cdsDec) ∧
    planarAtLast.Inv ∧ planarAtLast.phase = .busy ∧ fetch planarAtLast.latch.cmd = some .cdsEnc ∧
      planarAtLast.regs.i &&& 3 = 3 :=
  ⟨⟨fixOneWritten_inv, by decide, by decide⟩,
    ⟨planarBusy_inv 0x00 32 [] .fixEnc (by decide) (by decide +kernel) (by decide) (by decide +kernel), by decide, by decide⟩,
    ⟨planarBusy_inv 0x06 4 [] .cdsDec (by decide) (by decide) (by decide) (by decide), by decide, by decide⟩,
    planarAtLast_inv, by decide, by decide, by decide⟩

/-- Two machines that agree on IN[0..3] and LEN and on nothing else: one is fresh, one is in phase Done with a longer IN. -/
theorem witness_ResultDependsOnlyOnInputAndCommand :
    let s := host none [0, 0, 0, 0] false []
    let s' := (planarDone [.pass]).setInp (Memory.writeBytes [] 0 [0, 0, 0, 0, 7])
    s.phase ≠ .busy ∧ s'.phase ≠ .busy ∧ s.watch = false ∧ s'.watch = false ∧ s.len = s'.len ∧
      (∀ a < s.len, Memory.read s.inp a = Memory.read s'.inp a) ∧
      completes (exec .sprDec s) = true ∧ completes (exec .sprDec s') = true := by decide

/-- Two workers with different registers share the two groups of eight bytes, the later group first. -/
theorem witness_AnyWorkersGiveTheSameOutput :
    let inp := Memory.writeBytes [] 0 (List.replicate 8 0)
    let asg : List (Regs × List Nat) := [(State.reset.regs, [4]), ({ State.reset.regs with word := 5 }, [0])]
    lengthOk Instr.cdsDec.category Instr.cdsDec.direction 8 = true ∧ Memory.covers inp 8 = true ∧
      (asg.flatMap Prod.snd).Perm (workItems Instr.cdsDec.category 8) ∧
      ((poolRun (iterationOf .cdsDec) [1, 0, 1, 2] (poolStart .cdsDec inp 8 asg)).toOption.map Pool.finished) = some true := by
  refine ⟨by decide, by decide, ?_, by decide +kernel⟩
  change [4, 0].Perm [0, 4]
  exact List.Perm.swap ..

/-- Two workers with different registers on eight bytes, with a schedule that ends early, one that finishes, and one fair to both; CMD
never written; and a refused length. -/
theorem witness_WorkersCompleteTheOperation :
    let s := host (some 0x06) (List.replicate 8 0) false []
    let asg : List (Regs × List Nat) := [(State.reset.regs, [4]), ({ State.reset.regs with word := 5 }, [0])]
    let fair := List.replicate 8 0 ++ List.replicate 8 1
    (s.phase ≠ .busy ∧ fetch s.cmd = some .cdsDec ∧ fetch State.reset.cmd = none ∧
      lengthOk Instr.cdsDec.category Instr.cdsDec.direction State.reset.len = false) ∧
    s.Ready .cdsDec ∧ (asg.flatMap Prod.snd).Perm (workItems Instr.cdsDec.category s.len) ∧
      statusAfter (execWithWorkers .cdsDec asg [1] s) = some 0x01 ∧
      statusAfter (execWithWorkers .cdsDec asg [1, 0] s) = some 0x02 ∧
      ∀ k < asg.length, s.len ≤ fair.count k := by
  refine ⟨by decide, ⟨by decide, by decide, by decide +kernel⟩, ?_, by decide +kernel, by decide +kernel, by decide +kernel⟩
  change [4, 0].Perm [0, 4]
  exact List.Perm.swap ..

theorem witness_LengthIsPreserved : ∃ cs, transcode [0, 0, 0, 0] .sprite .decode = .ok cs := ⟨[0, 0, 0, 0], by decide⟩

/-- One unit, and one block. -/
theorem witness_round_trip_lengths : 0 < (List.replicate 32 (0 : Byte)).length ∧ (List.replicate 32 (0 : Byte)).length % 32 = 0 ∧
    0 < (List.replicate 128 (0 : Byte)).length ∧ (List.replicate 128 (0 : Byte)).length % 128 = 0 ∧
    Category.sprite ∈ [Category.sprite, Category.cdSprite] ∧ 127 < (List.replicate 128 (0 : Byte)).length ∧
    Direction.encode ≠ Direction.decode := by simp

/-- The last granule of eight bytes. -/
theorem witness_GranulesAreIndependent : (∃ cs, transcode (List.replicate 8 0) .cdSprite .decode = .ok cs) ∧
    (1 + 1) * granule .cdSprite .decode ≤ (List.replicate 8 (0 : Byte)).length :=
  ⟨⟨List.replicate 8 0, by decide +kernel⟩, by decide⟩

/-- The last pixel of a row, on either side, for the two statements about pixels. -/
theorem witness_pixels_are_where_they_belong : 7 < 8 ∧ 3 < 4 ∧ 124 % 4 = 0 ∧
    Category.cdSprite ∈ [Category.sprite, Category.cdSprite] := by decide

theorem witness_PlanarDecodeHasItsOwnInverse : 3 < 4 := by decide

end Sys2Proof.Tests
end

/-! PROOFS. The state (spec/10_state.md): what an operation leaves of the host's state and of the working registers, the
transitions between phases, and of what an operation's result is a function. -/

namespace Sys2Proof.Machine

/-! ### Everything an operation can answer with a next state -/

/-- In phase Busy the engine has moved; outside it a Start has failed its length check, or it has begun the operation and the
engine has moved from there, if only by no step at all. -/
theorem exec_next_cases {i : Instr} {s t : State} (h : exec i s = .next t) :
    (s.phase = .busy ∧ EngineKeeps s t) ∨
    (s.phase ≠ .busy ∧ t = s.beginStart.raiseError .length) ∨
    (s.phase ≠ .busy ∧ EngineKeeps s.beginStart.beginOperation t) := by
  rw [exec_eq_operate] at h
  rcases operate_next h with ⟨hb, h⟩ | ⟨hb, -, rfl⟩ | ⟨hb, -, -, ⟨-, rfl⟩ | ⟨-, h⟩⟩
  · exact .inl ⟨hb, engineTurn_frame h⟩
  · exact .inr (.inl ⟨hb, rfl⟩)
  · exact .inr (.inr ⟨hb, rfl, rfl, rfl, rfl, rfl, rfl, rfl, rfl, .inl rfl⟩)
  · exact .inr (.inr ⟨hb, engineTurn_frame h⟩)

/-- The phase an operation started outside phase Busy leaves (42_dispatcher.md R170, R177). -/
theorem exec_phase_of_not_busy {i : Instr} {s t : State} (hb : s.phase ≠ .busy) (h : exec i s = .next t) :
    t.phase = .busy ∨ t.phase = .done ∨ t.phase = .failed := by
  rcases exec_next_cases h with ⟨hb', -⟩ | ⟨-, rfl⟩ | ⟨-, hk⟩
  · exact absurd hb' hb
  · exact .inr (.inr rfl)
  · exact hk.phase.imp id .inl

/-- Without a host that looks in, an operation started outside phase Busy either fails its length check or is Done with the closed
form in OUT (42_dispatcher.md R170, R177). -/
theorem exec_unwatched_next {i : Instr} {s t : State} (hb : s.phase ≠ .busy) (hw : s.watch = false)
    (h : exec i s = .next t) :
    (lengthOk i.category i.direction s.len = false ∧ t = s.beginStart.raiseError .length) ∨
    (lengthOk i.category i.direction s.len = true ∧ t.phase = .done ∧ t.err = .none ∧
      t.out = some ((List.range s.len).zip
        ((List.range s.len).map (outByte i.category i.direction (Memory.byteAt s.inp))))) := by
  rw [exec_eq_operate] at h
  rcases operate_next h with ⟨hb', -⟩ | ⟨-, hl, rfl⟩ | ⟨-, hl, hc, ⟨hw', -⟩ | ⟨-, h⟩⟩
  · exact absurd hb' hb
  · exact .inl ⟨hl, rfl⟩
  · rw [hw] at hw'; cases hw'
  · obtain ⟨u, m, hrun, hu, hwf, hcell⟩ :=
      progress_run s.len s.beginStart.beginOperation [] (progress_start hl hc) rfl (Nat.sub_le ..)
    have hturn : engineTurn (iterationOf i) s.beginStart.beginOperation = .next u := by simpa [engineTurn, hw] using hrun
    cases h.symm.trans hturn
    refine .inr ⟨hl, by rw [hu], by rw [hu], ?_⟩
    rw [hu, Memory.eq_zip_of_read (hwf rfl) hcell]
    rfl

/-! ### The host's state -/

/-- Settles O33: the engine keeps all of it, and Start changes nothing of it but the latch and, when it fails, the record. -/
theorem operationsLeaveTheHostsStateAlone : Obligations.OperationsLeaveTheHostsStateAlone := by
  intro i s t h
  rcases exec_next_cases h with ⟨hb, hk⟩ | ⟨hb, rfl⟩ | ⟨hb, hk⟩
  · simp [hb, hk.inp, hk.len, hk.cmd, hk.pending, hk.watch, hk.seen, hk.failures, hk.latch]
  · simp [hb]
  · have hphase : t.phase ≠ .failed := by rcases hk.phase with hp | hp <;> simp [hp]
    simp [hb, hphase, hk.inp, hk.len, hk.cmd, hk.pending, hk.watch, hk.seen, hk.failures, hk.latch]

/-! ### The working registers -/

/-- A part of the working registers that does not depend on I and that every iteration keeps is kept by the operation. -/
theorem exec_keeps_regs_part {α : Type} (part : Regs → α) (hindex : ∀ r k, part { r with i := k } = part r) {i : Instr}
    {f : Iteration} (hf : iterationOf i = f) (hstep : ∀ inp n e e', f inp n e = .ok e' → part e'.regs = part e.regs)
    {s t : State} (h : exec i s = .next t) : part t.regs = part s.regs :=
  exec_regs_keeps (P := fun r r' => part r' = part r) (fun _ => rfl) (fun _ _ _ hab hbc => hbc.trans hab) hindex
    (fun inp n e e' he => hstep inp n e e' (by rwa [hf] at he)) h

/-- An operation whose iterations change no working register but I changes none but I. -/
theorem exec_regs_of_index_only {i : Instr} {f : Iteration} (hf : iterationOf i = f)
    (hstep : ∀ inp n e e', f inp n e = .ok e' → e'.regs = { e.regs with i := e'.regs.i }) {s t : State}
    (h : exec i s = .next t) : t.regs = { s.regs with i := t.regs.i } := by
  have hrest : ({ t.regs with i := 0 } : Regs) = { s.regs with i := 0 } :=
    exec_keeps_regs_part (fun r => { r with i := 0 }) (fun _ _ => rfl) hf
      (fun inp n e e' he => congrArg (fun r : Regs => { r with i := 0 }) (hstep inp n e e' he)) h
  exact congrArg (fun r : Regs => { r with i := t.regs.i }) hrest

/-- Planar decode leaves the registers of planar encode (10_state.md R33, R34). -/
theorem exec_planarDec_regs {i : Instr} (hf : iterationOf i = planarDecIter) {s t : State} (h : exec i s = .next t) :
    t.regs.indexes = s.regs.indexes ∧ t.regs.mask = s.regs.mask ∧ t.regs.bitplane = s.regs.bitplane ∧
      t.regs.bp = s.regs.bp :=
  ⟨exec_keeps_regs_part Regs.indexes (fun _ _ => rfl) hf (fun _ _ _ _ he => (planarDecIter_frame he).indexes) h,
   exec_keeps_regs_part Regs.mask (fun _ _ => rfl) hf (fun _ _ _ _ he => (planarDecIter_frame he).mask) h,
   exec_keeps_regs_part Regs.bitplane (fun _ _ => rfl) hf (fun _ _ _ _ he => (planarDecIter_frame he).bitplane) h,
   exec_keeps_regs_part Regs.bp (fun _ _ => rfl) hf (fun _ _ _ _ he => (planarDecIter_frame he).bp) h⟩

/-- Planar encode leaves the registers of planar decode (10_state.md R31, R32). -/
theorem exec_planarEnc_regs {i : Instr} (hf : iterationOf i = planarEncIter) {s t : State} (h : exec i s = .next t) :
    t.regs.word = s.regs.word ∧ t.regs.hnib = s.regs.hnib :=
  ⟨exec_keeps_regs_part Regs.word (fun _ _ => rfl) hf (fun _ _ _ _ he => (planarEncIter_frame he).1) h,
   exec_keeps_regs_part Regs.hnib (fun _ _ => rfl) hf (fun _ _ _ _ he => (planarEncIter_frame he).2.1) h⟩

/-- A Start that ends in Failed leaves all working registers (60_exceptions.md R209). -/
theorem exec_regs_of_failed {i : Instr} {s t : State} (h : exec i s = .next t) (hb : s.phase ≠ .busy)
    (hfail : t.phase = .failed) : t.regs = s.regs := by
  rcases exec_next_cases h with ⟨hb', -⟩ | ⟨-, rfl⟩ | ⟨-, hk⟩
  · exact absurd hb' hb
  · rfl
  · rcases hk.phase with hp | hp <;> simp [hfail] at hp

/-- Settles O34, family by family: what an iteration keeps and Start does not touch, the operation keeps. -/
theorem operationsLeaveOtherWorkingRegistersAlone : Obligations.OperationsLeaveOtherWorkingRegistersAlone := by
  intro s t
  refine ⟨?fix, ?planarDec, ?planarEnc, fun i h hb hfail => exec_regs_of_failed h hb hfail⟩
  case fix =>
    exact List.forall_mem_cons.2 ⟨exec_regs_of_index_only (f := fixDecIter) rfl fun _ _ _ _ he => (fixDecIter_frame he).1,
      List.forall_mem_singleton.2 (
        exec_regs_of_index_only (f := fixEncIter) rfl fun _ _ _ _ he => (fixEncIter_frame he).1)⟩
  case planarDec =>
    exact List.forall_mem_cons.2 ⟨exec_planarDec_regs rfl, List.forall_mem_singleton.2 (exec_planarDec_regs rfl)⟩
  case planarEnc =>
    exact List.forall_mem_cons.2 ⟨exec_planarEnc_regs rfl, List.forall_mem_singleton.2 (exec_planarEnc_regs rfl)⟩

/-! ### The transitions between phases -/

/-- From phase Busy a step stays there, completes, or takes a reset (10_state.md R27). -/
theorem step_busy_phase {s t : State} (hb : s.phase = .busy) (h : step s = .next t) :
    t.phase = s.phase ∨ t.phase = .done ∨ (t.phase = .idle ∧ s.pending.head? = some .reset) := by
  rcases step_busy_cases s hb with ⟨ms, -, hs⟩ | ⟨ms, hp, hs⟩ | ⟨b, ms, -, hs⟩ | ⟨ms, -, hs⟩ | hs <;> rw [hs] at h
  · cases h; exact .inl rfl
  · cases h; exact .inr (.inr ⟨rfl, by rw [hp]; rfl⟩)
  · cases h; exact .inl rfl
  · exact (busyTurn_keeps (s := s.setPending ms) hb h).phase.imp id .inl
  · exact (busyTurn_keeps hb h).phase.imp id .inl

/-- Outside phase Busy only a reset and a Start change the phase (10_state.md R27). -/
theorem HostEffect.phase {s t : State} {m : HostMove} (he : HostEffect s m t) (hb : s.phase ≠ .busy) :
    t.phase = s.phase ∨ (m = .reset ∧ t.phase = .idle) ∨
      (m = .start ∧ (t.phase = .busy ∨ t.phase = .done ∨ t.phase = .failed)) := by
  cases he with
  | operation i _ _ hexec => exact .inr (.inr ⟨rfl, exec_phase_of_not_busy hb hexec⟩)
  | usage _ => exact .inr (.inr ⟨rfl, .inr (.inr rfl)⟩)
  | reset => exact .inr (.inl ⟨rfl, rfl⟩)
  | _ => exact .inl rfl

/-- Settles O42: in phase Busy by all a step can do there, outside it by the move the host makes. -/
theorem phasesMoveAsSpecified : Obligations.PhasesMoveAsSpecified := by
  intro s t h
  by_cases hb : s.phase = .busy
  · rcases step_busy_phase hb h with hp | hp | hp
    · exact .inl hp
    · exact .inr (.inr (.inl ⟨hb, hp⟩))
    · exact .inr (.inl hp)
  · rcases step_outside_cases hb h with ⟨-, rfl⟩ | ⟨m, ms, hp, he⟩
    · exact .inl rfl
    · rcases he.phase hb with hph | ⟨rfl, hph⟩ | ⟨rfl, hph⟩
      · exact .inl hph
      · exact .inr (.inl ⟨hph, by rw [hp]; rfl⟩)
      · exact .inr (.inr (.inr ⟨hb, by rw [hp]; rfl, hph⟩))

/-! ### What the result is a function of -/

/-- The closed form of an output depends on the input cells below an accepted length alone. -/
theorem map_outByte_congr {c : Category} {d : Direction} {inp inp' : Memory} {n : Nat} (hn : lengthOk c d n = true)
    (hinp : ∀ a < n, Memory.read inp a = Memory.read inp' a) :
    (List.range n).map (outByte c d (Memory.byteAt inp)) = (List.range n).map (outByte c d (Memory.byteAt inp')) :=
  List.map_congr_left fun j hj =>
    outByte_congr c d hn (List.mem_range.1 hj) fun a ha => by rw [Memory.byteAt, hinp a ha, Memory.byteAt]

/-- Settles O50: both runs fail the same length check, or both are Done with the closed form of the same input bytes. -/
theorem resultDependsOnlyOnInputAndCommand : Obligations.ResultDependsOnlyOnInputAndCommand := by
  intro i s s' t t' hb hb' hw hw' hlen hinp h h'
  rcases exec_unwatched_next hb hw h with ⟨hl, rfl⟩ | ⟨hl, hph, herr, hout⟩ <;>
    rcases exec_unwatched_next hb' hw' h' with ⟨hl', rfl⟩ | ⟨hl', hph', herr', hout'⟩ <;> rw [← hlen, hl] at hl'
  · exact ⟨rfl, rfl, rfl⟩
  · cases hl'
  · cases hl'
  · refine ⟨?_, hph.trans hph'.symm, herr.trans herr'.symm⟩
    rw [hout, hout', ← hlen, map_outByte_congr hl hinp]

/-! ### The tables, STATUS and reset -/

/-- Settles O3: the tables are closed terms, and their identities are checked at each of the four indexes. -/
theorem tablesHoldTheirConstants : Obligations.TablesHoldTheirConstants := by
  refine ⟨rfl, rfl, ?columns, ?masks⟩
  case columns => decide
  case masks => decide

/-- STATUS holds its three fields (10_state.md R26). -/
theorem State.status_fields (s : State) :
    s.status.extractLsb' 0 2 = s.phase.code ∧ s.status.extractLsb' 2 3 = s.err.code ∧ s.status.extractLsb' 5 3 = 0 := by
  unfold State.status
  refine ⟨?phase, ?err, BitVec.extractLsb'_append_eq_left⟩
  case phase =>
    rw [BitVec.extractLsb'_append_eq_of_add_le (by decide)]
    exact BitVec.extractLsb'_append_eq_right
  case err =>
    rw [BitVec.extractLsb'_append_eq_of_add_le (by decide)]
    exact BitVec.extractLsb'_append_eq_left

/-- Settles O4: the fields lie side by side in the word, and a phase and an error determine it. -/
theorem statusWordPacksPhaseAndErr : Obligations.StatusWordPacksPhaseAndErr := by
  intro s
  obtain ⟨hphase, herr, htop⟩ := s.status_fields
  refine ⟨hphase, herr, htop, ?_, ?_, ?_, ?_, ?_⟩ <;> intro hp he <;> rw [State.status, hp, he] <;> rfl

/-- Settles O5: the state after reset field by field. -/
theorem resetLeavesTheSpecifiedState : Obligations.ResetLeavesTheSpecifiedState :=
  ⟨rfl, rfl, rfl, rfl, Memory.read_nil, rfl, rfl, rfl⟩

/-- Settles O45: at reset the phase is Idle, IN is empty and there is no OUT, so each clause holds at once or is about another phase. -/
theorem resetHasTheInvariant : Obligations.ResetHasTheInvariant where
  inp_wf := reset_inp_wf
  out_wf _ h := nomatch h
  no_output _ := rfl
  running h := nomatch h
  complete h := nomatch h
  no_error _ := rfl
  error h := nomatch h

end Sys2Proof.Machine

/-! PROOFS. The machine's memory (spec/20_memory.md R56, R61): the invariant is kept by every step, and no cell of OUT is written
twice. Both rest on what a turn of the engine does to an operation under way. -/

namespace Sys2Proof.Machine

/-! ### The output of an operation under way -/

/-- A cell that holds a value holds the right one (20_memory.md R56). -/
theorem Progress.right {s : State} {i : Instr} {m : Memory} (h : Progress s i m) {a : Nat} {b : Byte}
    (hab : Memory.read m a = some b) :
    a < s.latch.len ∧ b = outByte i.category i.direction (Memory.byteAt s.inp) a := by
  rw [h.cells] at hab
  split at hab
  · next hc => cases hab; exact ⟨hc.1, rfl⟩
  · cases hab

/-- A cell written at the next index holds no value yet (20_memory.md R56). -/
theorem Progress.read_of_visit {s : State} {i : Instr} {m : Memory} (h : Progress s i m) {a : Nat}
    (hv : visitOf i.category i.direction a = s.regs.i) : Memory.read m a = none := by
  rw [h.cells, if_neg]
  rintro ⟨-, hlt⟩
  omega

/-! ### The engine's turn -/

/-- What a turn of the engine does to operation `i`, under way in `s` with `m` as its output so far: one iteration or all that are
left (log 5), it takes no written cell back, and it leaves the operation under way or Done with every cell right. -/
structure TurnDoes (i : Instr) (s t : State) (m m' : Memory) : Prop where
  keeps : EngineKeeps s t
  out_eq : t.out = some m'
  wf : Memory.wf m = true → Memory.wf m' = true
  written : ∀ a b, Memory.read m a = some b → Memory.read m' a = some b
  outcome : (t.phase = .busy ∧ t.err = s.err ∧ Progress t i m') ∨
    (t.phase = .done ∧ t.err = .none ∧ ∀ a, Memory.read m' a =
      if a < s.latch.len then some (outByte i.category i.direction (Memory.byteAt s.inp) a) else none)

theorem progress_turn {s : State} {i : Instr} {m : Memory} (h : Progress s i m) (hb : s.phase = .busy) :
    ∃ t m', engineTurn (iterationOf i) s = .next t ∧ TurnDoes i s t m m' := by
  cases hw : s.watch
  case true =>
    obtain ⟨t, m', he, ho, -, -, hwf, hkept, hcase⟩ := progress_next h hb
    have hturn : engineTurn (iterationOf i) s = .next t := by simpa [engineTurn, hw] using he
    refine ⟨t, m', hturn, engineTurn_frame hturn, ho, hwf, hkept, ?_⟩
    rcases hcase with ⟨hp, herr, -, hprog⟩ | ⟨hp, herr, -, hall⟩
    · exact .inl ⟨hp, herr, hprog⟩
    · exact .inr ⟨hp, herr, hall⟩
  case false =>
    obtain ⟨t, m', he, ht, hwf, hall⟩ := progress_run s.latch.len s m h hb (Nat.sub_le ..)
    have hturn : engineTurn (iterationOf i) s = .next t := by simpa [engineTurn, hw] using he
    refine ⟨t, m', hturn, engineTurn_frame hturn, by rw [ht], hwf, fun a b hab => ?_, .inr ⟨by rw [ht], by rw [ht], hall⟩⟩
    obtain ⟨hlt, rfl⟩ := h.right hab
    rw [hall, if_pos hlt]

theorem busyTurn_eq_engineTurn {s : State} {i : Instr} (hb : s.phase = .busy) (hf : fetch s.latch.cmd = some i) :
    busyTurn s = engineTurn (iterationOf i) s := by
  rw [busyTurn_of_fetch hf, exec_eq_operate, operate, if_pos hb]

/-- In phase Busy of the invariant the engine's turn has a next state, and does what it should. -/
theorem State.Inv.busyTurn_does {s : State} (h : s.Inv) (hb : s.phase = .busy) :
    ∃ i m t m', Running s i m ∧ busyTurn s = .next t ∧ TurnDoes i s t m m' := by
  obtain ⟨i, m, hr⟩ := h.running hb
  obtain ⟨t, m', ht, hd⟩ := progress_turn hr.progress hb
  exact ⟨i, m, t, m', hr, by rw [busyTurn_eq_engineTurn hb hr.latched, ht], hd⟩

/-! ### The invariant, phase by phase -/

theorem State.Inv.of_busy {s : State} {i : Instr} {m : Memory} (hp : s.phase = .busy) (he : s.err = .none)
    (hi : Memory.wf s.inp = true) (hm : Memory.wf m = true) (hr : Running s i m) : s.Inv where
  inp_wf := hi
  out_wf m' h := by rw [hr.progress.out_eq] at h; cases h; exact hm
  no_output h := by simp [hp] at h
  running _ := ⟨i, m, hr⟩
  complete h := by simp [hp] at h
  no_error _ := he
  error h := by simp [hp] at h

theorem State.Inv.of_done {s : State} {m : Memory} (hp : s.phase = .done) (he : s.err = .none)
    (hi : Memory.wf s.inp = true) (hm : Memory.wf m = true) (ho : s.out = some m)
    (hc : ∀ a, (Memory.read m a).isSome = decide (a < s.latch.len)) : s.Inv where
  inp_wf := hi
  out_wf m' h := by rw [ho] at h; cases h; exact hm
  no_output h := by simp [hp] at h
  running h := by simp [hp] at h
  complete _ := ⟨m, ho, hc⟩
  no_error _ := he
  error h := by simp [hp] at h

/-- An error the core produces leaves a state of the invariant (60_exceptions.md R202, R209). -/
theorem State.raiseError_inv {s : State} {e : Err} (hi : Memory.wf s.inp = true) (he : e = .usage ∨ e = .length) :
    (s.raiseError e).Inv where
  inp_wf := hi
  out_wf _ h := by cases h
  no_output _ := rfl
  running h := by cases h
  complete h := by cases h
  no_error h := absurd rfl h
  error _ := ⟨he, rfl⟩

/-- A reset by the host gives what the state after reset has, but for the record (10_state.md R38, log 7). -/
theorem State.hostReset_inv (s : State) : s.hostReset.Inv where
  inp_wf := reset_inp_wf
  out_wf _ h := by cases h
  no_output _ := rfl
  running h := by cases h
  complete h := by cases h
  no_error _ := rfl
  error h := by cases h

/-! ### What keeps the invariant -/

/-- The fields that are the host's own have no part in the invariant (log 4, log 5, log 6). -/
theorem State.Inv.withHostFields {s : State} (h : s.Inv) (ms : List HostMove) (on : Bool) (xs : List Seen) :
    ({ s with pending := ms, watch := on, seen := xs } : State).Inv where
  inp_wf := h.inp_wf
  out_wf := h.out_wf
  no_output := h.no_output
  running hb := by
    obtain ⟨i, m, hr⟩ := h.running hb
    exact ⟨i, m, hr.latched, hr.cmd_kept, hr.len_kept, hr.progress.congr rfl rfl rfl rfl⟩
  complete := h.complete
  no_error := h.no_error
  error := h.error

theorem State.Inv.setPending {s : State} (h : s.Inv) (ms : List HostMove) : (s.setPending ms).Inv :=
  h.withHostFields ms s.watch s.seen

theorem State.Inv.setWatch {s : State} (h : s.Inv) (on : Bool) : (s.setWatch on).Inv :=
  h.withHostFields s.pending on s.seen

theorem State.Inv.see {s : State} (h : s.Inv) (x : Seen) : (s.see x).Inv :=
  h.withHostFields s.pending s.watch (x :: s.seen)

/-- Outside phase Busy the host may write IN, LEN and CMD (70_reset_and_hazards.md R236): Done is about the latched N. -/
theorem State.Inv.withHostWrites {s : State} (h : s.Inv) (hb : s.phase ≠ .busy) {inp : Memory}
    (hi : Memory.wf inp = true) (n : Nat) (w : Option Byte) :
    ({ s with inp := inp, len := n, cmd := w } : State).Inv where
  inp_wf := hi
  out_wf := h.out_wf
  no_output := h.no_output
  running hb' := absurd hb' hb
  complete := h.complete
  no_error := h.no_error
  error := h.error

/-- A Start that passes its checks gives a state of the invariant, in phase Busy (42_dispatcher.md R170). -/
theorem beginOperation_inv {s : State} {i : Instr} (hi : Memory.wf s.inp = true) (hf : fetch s.cmd = some i)
    (hl : lengthOk i.category i.direction s.len = true) (hc : Memory.covers s.inp s.len = true) :
    s.beginStart.beginOperation.Inv :=
  .of_busy (m := []) rfl rfl hi rfl ⟨hf, rfl, rfl, progress_start hl hc⟩

theorem TurnDoes.inv {i : Instr} {s t : State} {m m' : Memory} (hd : TurnDoes i s t m m') (h : s.Inv)
    (hb : s.phase = .busy) (hr : Running s i m) : t.Inv := by
  obtain ⟨hlatched, hcmd, hlen, hprog⟩ := hr
  have hinp : Memory.wf t.inp = true := by rw [hd.keeps.inp]; exact h.inp_wf
  have hm' : Memory.wf m' = true := hd.wf (h.out_wf m hprog.out_eq)
  rcases hd.outcome with ⟨hp, herr, hprog'⟩ | ⟨hp, herr, hall⟩
  · have hnone : s.err = .none := h.no_error (by simp [hb])
    refine .of_busy hp (herr.trans hnone) hinp hm' ⟨?_, ?_, ?_, hprog'⟩
    · rw [hd.keeps.latch]; exact hlatched
    · rw [hd.keeps.latch, hd.keeps.cmd]; exact hcmd
    · rw [hd.keeps.latch, hd.keeps.len]; exact hlen
  · refine .of_done hp herr hinp hm' hd.out_eq fun a => ?_
    rw [hall, hd.keeps.latch]
    by_cases ha : a < s.latch.len <;> simp [ha]

theorem State.Inv.after_busyTurn {s t : State} (h : s.Inv) (hb : s.phase = .busy) (ht : busyTurn s = .next t) : t.Inv := by
  obtain ⟨i, m, u, m', hr, hu, hd⟩ := h.busyTurn_does hb
  cases hu.symm.trans ht
  exact hd.inv h hb hr

/-- Outside phase Busy, Start of the operation CMD selects keeps the invariant, however far the engine goes in the same step. -/
theorem State.Inv.after_exec {s t : State} {i : Instr} (h : s.Inv) (hb : s.phase ≠ .busy)
    (hf : fetch s.cmd = some i) (ht : exec i s = .next t) : t.Inv := by
  rw [exec_eq_operate] at ht
  rcases operate_next ht with ⟨hb', -⟩ | ⟨-, -, rfl⟩ | ⟨-, hl, hc, hgo⟩
  · exact absurd hb' hb
  · exact State.raiseError_inv h.inp_wf (.inr rfl)
  · have hbegun := beginOperation_inv h.inp_wf hf hl hc
    rcases hgo with ⟨-, rfl⟩ | ⟨-, hturn⟩
    · exact hbegun
    · rw [← busyTurn_eq_engineTurn (s := s.beginStart.beginOperation) rfl hf] at hturn
      exact hbegun.after_busyTurn rfl hturn

/-- A move of the host outside phase Busy keeps the invariant. -/
theorem HostEffect.inv {s t : State} {m : HostMove} (he : HostEffect s m t) (h : s.Inv) (hb : s.phase ≠ .busy) :
    t.Inv := by
  cases he with
  | writeCmd w => exact h.withHostWrites hb h.inp_wf s.len (some w)
  | writeLen n => exact h.withHostWrites hb h.inp_wf n s.cmd
  | writeIn a bs => exact h.withHostWrites hb (Memory.writeBytes_wf a bs h.inp_wf) s.len s.cmd
  | copy m _ _ => exact h.withHostWrites hb (Memory.writeBytes_wf 0 m.bytes h.inp_wf) s.len s.cmd
  | operation i _ hf hexec => exact h.after_exec hb hf hexec
  | usage _ => exact State.raiseError_inv h.inp_wf (.inl rfl)
  | see _ x => exact h.see x
  | reset => exact s.hostReset_inv
  | watch on => exact h.setWatch on
  | nothing _ => exact h

/-- Settles O44: in phase Busy the engine's turn carries the operation on, and the host's moves there leave it alone or reset it;
outside it, move by move. -/
theorem stepKeepsTheInvariant : Obligations.StepKeepsTheInvariant := by
  intro s t h hstep
  by_cases hb : s.phase = .busy
  · rcases step_busy_cases s hb with ⟨ms, -, hs⟩ | ⟨ms, -, hs⟩ | ⟨on, ms, -, hs⟩ | ⟨ms, -, hs⟩ | hs <;> rw [hs] at hstep
    · cases hstep; exact (h.setPending ms).see _
    · cases hstep; exact State.hostReset_inv _
    · cases hstep; exact (h.setPending ms).setWatch on
    · exact (h.setPending ms).after_busyTurn hb hstep
    · exact h.after_busyTurn hb hstep
  · rcases step_outside_cases hb hstep with ⟨-, rfl⟩ | ⟨m, ms, -, he⟩
    · exact h
    · exact he.inv (h.setPending ms) hb

/-! ### The cells of OUT -/

/-- The cells of a planar-decode group are written at its base (42_dispatcher.md R187). -/
theorem clearLow_two_add {g k : Nat} (hg : g % 4 = 0) (hk : k < 4) : clearLow 2 (g + k) = g :=
  (clearLow_two_eq_iff hg).2 ⟨Nat.le_add_right .., Nat.add_lt_add_left hk g⟩

/-- The cells of a planar-encode group are written at its last byte step (42_dispatcher.md R187). -/
theorem clearLow_two_encPlace {x bp : Nat} (hx : x &&& 3 = 3) (hbp : bp < 4) :
    (clearLow 2 (encPlace (clearLow 2 x) bp) ^^^ destXor) + 3 = x := by
  rw [encPlace_eq _ hbp, clearLow_two_add (xor_destXor_mod_four (clearLow_two_mod x)) hbp, xor_destXor_self, clearLow_eq]
  rw [and_three] at hx
  omega

/-- The operation under way in phase Busy, where the latched CMD and OUT are known. -/
theorem State.Inv.progress {s : State} {i : Instr} {m : Memory} (h : s.Inv) (hb : s.phase = .busy)
    (ho : s.out = some m) (hf : fetch s.latch.cmd = some i) : Progress s i m := by
  obtain ⟨i', m', hr⟩ := h.running hb
  cases hf.symm.trans hr.latched
  cases ho.symm.trans hr.progress.out_eq
  exact hr.progress

/-- The engine's turn leaves every cell that holds a value. -/
theorem State.Inv.busyTurn_written {s t : State} {m m' : Memory} (h : s.Inv) (hb : s.phase = .busy)
    (ht : busyTurn s = .next t) (ho : s.out = some m) (ho' : t.out = some m') {a : Nat} {b : Byte}
    (hab : Memory.read m a = some b) : Memory.read m' a = some b := by
  obtain ⟨i, m₁, u, m₂, hr, hu, hd⟩ := h.busyTurn_does hb
  cases hu.symm.trans ht
  cases ho.symm.trans hr.progress.out_eq
  cases ho'.symm.trans hd.out_eq
  exact hd.written a b hab

/-- In phase Busy a step leaves every cell that holds a value, as long as there is an OUT. -/
theorem step_busy_written {s t : State} {m m' : Memory} (h : s.Inv) (hb : s.phase = .busy) (hstep : step s = .next t)
    (ho : s.out = some m) (ho' : t.out = some m') {a : Nat} {b : Byte} (hab : Memory.read m a = some b) :
    Memory.read m' a = some b := by
  rcases step_busy_cases s hb with ⟨ms, -, hs⟩ | ⟨ms, -, hs⟩ | ⟨on, ms, -, hs⟩ | ⟨ms, -, hs⟩ | hs <;> rw [hs] at hstep
  · cases hstep; cases ho.symm.trans ho'; exact hab
  · cases hstep; cases ho'
  · cases hstep; cases ho.symm.trans ho'; exact hab
  · exact (h.setPending ms).busyTurn_written hb hstep ho ho' hab
  · exact h.busyTurn_written hb hstep ho ho' hab

/-- Settles O49: each offset of the next iteration is visited at I, and the invariant has written only cells visited below I. -/
theorem outputCellsAreWrittenOnce : Obligations.OutputCellsAreWrittenOnce := by
  refine ⟨fun s m h hb ho => ⟨?fixDec, ?fixEnc, ?planarDec, ?planarEnc⟩,
    fun s t m m' h hb hstep ho ho' a b hab => step_busy_written h hb hstep ho ho' hab⟩
  case fixDec => exact fun hf => (h.progress hb ho hf).read_of_visit rfl
  case fixEnc => exact fun hf => (h.progress hb ho hf).read_of_visit (encDst_encDst s.regs.i)
  case planarDec =>
    intro i hi hf k hk
    have hprog := h.progress hb ho hf
    fin_cases hi <;> exact hprog.read_of_visit (clearLow_two_add hprog.index_aligned hk)
  case planarEnc =>
    intro i hi hf h3 bp hbp
    have hprog := h.progress hb ho hf
    fin_cases hi <;> exact hprog.read_of_visit (clearLow_two_encPlace h3 hbp)

end Sys2Proof.Machine

/-! PROOFS. The encoding (spec/30_encoding.md): the decoder and the encoder field by field, the map of CMD values, and the copy of
OUT to IN between operations. -/

namespace Sys2Proof

/-! ### The fields of a command word -/

/-- A command word is its three fields side by side (30_encoding.md R80). -/
@[simp] theorem Command.toByte_ofByte (w : Byte) : (Command.ofByte w).toByte = w := by
  have hlow : w.extractLsb' 2 1 ++ w.extractLsb' 0 2 = w.extractLsb' 0 3 :=
    BitVec.extractLsb'_append_extractLsb'_eq_extractLsb' rfl
  calc w.extractLsb' 3 5 ++ (w.extractLsb' 2 1 ++ w.extractLsb' 0 2)
      = w.extractLsb' 3 5 ++ w.extractLsb' 0 3 := by rw [hlow]
    _ = w.extractLsb' 0 8 := BitVec.extractLsb'_append_extractLsb'_eq_extractLsb' rfl
    _ = w := BitVec.extractLsb'_eq_self

/-- Each field is read back where it was put (30_encoding.md R80). -/
@[simp] theorem Command.ofByte_toByte (c : Command) : Command.ofByte c.toByte = c := by
  obtain ⟨rsv, dir, cat⟩ := c
  simp only [Command.ofByte, Command.toByte, Command.mk.injEq]
  refine ⟨BitVec.extractLsb'_append_eq_left, ?dir, ?cat⟩
  case dir =>
    rw [BitVec.extractLsb'_append_eq_of_add_le (by decide)]
    exact BitVec.extractLsb'_append_eq_left
  case cat =>
    rw [BitVec.extractLsb'_append_eq_of_add_le (by decide), BitVec.extractLsb'_append_eq_of_add_le (by decide)]
    exact BitVec.extractLsb'_eq_self

/-- A word has the fields `c` exactly when it is the word made of them. -/
theorem Command.ofByte_eq_iff {w : Byte} {c : Command} : Command.ofByte w = c ↔ w = c.toByte :=
  ⟨fun h => by rw [← h, toByte_ofByte], fun h => by rw [h, ofByte_toByte]⟩

/-- A value of CAT stands for a category exactly when it is the category's code (30_encoding.md R81). -/
theorem categoryOfCode_eq_some_iff {c : BitVec 2} {k : Category} : categoryOfCode c = some k ↔ c = k.code := by
  cases k <;> decide +revert

/-- A value of DIR stands for a direction exactly when it is the direction's code (30_encoding.md R81). -/
theorem directionOfCode_eq_iff {c : BitVec 1} {d : Direction} : directionOfCode c = d ↔ c = d.code := by
  cases d <;> decide +revert

/-- An instruction stands in one row of the dispatch table, that of its own pair (42_dispatcher.md R171). -/
theorem Instr.ofPair_eq_iff {k : Category} {d : Direction} {i : Instr} :
    Instr.ofPair k d = i ↔ k = i.category ∧ d = i.direction := by
  constructor
  · rintro rfl
    cases k <;> cases d <;> exact ⟨rfl, rfl⟩
  · rintro ⟨rfl, rfl⟩
    cases i <;> rfl

/-! ### The decoder against the encoder -/

/-- The decoder, as a statement about the three fields (30_encoding.md R83, R84). -/
theorem decode_eq_ok_iff_fields {w : Byte} {i : Instr} :
    decode w = .ok i ↔ (Command.ofByte w).rsv = 0 ∧ categoryOfCode (Command.ofByte w).cat = some i.category ∧
      directionOfCode (Command.ofByte w).dir = i.direction := by
  unfold decode
  dsimp only
  split
  · next hr => exact ⟨(nomatch ·), fun h => absurd h.1 hr⟩
  · next hr =>
    have hr : (Command.ofByte w).rsv = 0 := not_not.1 hr
    split
    · next hc => simp [hc]
    · next k hc => simp [hr, hc, Instr.ofPair_eq_iff]

/-- The only word that decodes to an instruction is its command word (30_encoding.md R80, R81, R83). -/
theorem decode_eq_ok_iff {w : Byte} {i : Instr} : decode w = .ok i ↔ w = encode i := by
  rw [decode_eq_ok_iff_fields, categoryOfCode_eq_some_iff, directionOfCode_eq_iff, encode, ← Command.ofByte_eq_iff]
  generalize Command.ofByte w = c
  obtain ⟨rsv, dir, cat⟩ := c
  simp only [Instr.command, Command.mk.injEq]
  exact and_congr_right' and_comm

theorem decode_encode (i : Instr) : decode (encode i) = .ok i := decode_eq_ok_iff.2 rfl

/-- A word that is no instruction's command word is reserved (30_encoding.md R84). -/
theorem decode_eq_error_of_ne_encode {w : Byte} (h : ∀ i, w ≠ encode i) : ∃ r, decode w = .error r := by
  cases hd : decode w with
  | error r => exact ⟨r, rfl⟩
  | ok i => exact absurd (decode_eq_ok_iff.1 hd) (h i)

/-- The six command words (30_encoding.md R83). -/
theorem encode_mem_commandWords (i : Instr) : encode i ∈ [0x00#8, 0x01#8, 0x02#8, 0x04#8, 0x05#8, 0x06#8] := by
  cases i <;> decide

/-- Settles O2: a word decodes to an instruction exactly when it is the instruction's command word. -/
theorem decodeInvertsEncode : Obligations.DecodeInvertsEncode :=
  ⟨decode_encode, fun _ _ h => (decode_eq_ok_iff.1 h).symm⟩

/-- Settles O1: each row's word is its operation's command word, and every other byte is no command word. -/
theorem commandMapIsExact : Obligations.CommandMapIsExact :=
  ⟨⟨decode_encode .fixEnc, rfl⟩, ⟨decode_encode .sprEnc, rfl⟩, ⟨decode_encode .cdsEnc, rfl⟩, ⟨decode_encode .fixDec, rfl⟩,
    ⟨decode_encode .sprDec, rfl⟩, ⟨decode_encode .cdsDec, rfl⟩,
    fun _ hw => decode_eq_error_of_ne_encode fun i hi => hw (hi ▸ encode_mem_commandWords i)⟩

end Sys2Proof

namespace Sys2Proof.Machine

/-! ### The copy of OUT to IN -/

/-- A buffer whose cells are exactly those below `n` covers `n`. -/
theorem Memory.covers_of_isSome_read {m : Memory} {n : Nat} (h : ∀ a, (Memory.read m a).isSome = decide (a < n)) :
    Memory.covers m n = true :=
  (Memory.covers_iff m n).2 fun a ha => by simp [h, ha]

/-- The list of bytes of a canonical buffer whose cells are exactly those below `n` is the byte of each offset in turn. -/
theorem Memory.bytes_eq_take {m : Memory} {n : Nat} (hw : Memory.wf m = true)
    (h : ∀ a, (Memory.read m a).isSome = decide (a < n)) : Memory.bytes m = Memory.take m n := by
  have hcells : ∀ a, Memory.read m a = if a < n then some (Memory.byteAt m a) else none := by
    intro a
    split
    · next ha => exact Memory.read_of_covers (Memory.covers_of_isSome_read h) ha
    · next ha => exact Option.isNone_iff_eq_none.1 (by simp [← Option.not_isSome, h, ha])
  calc Memory.bytes m
      = ((List.range n).zip (Memory.take m n)).map Prod.snd := congrArg Memory.bytes (Memory.eq_zip_of_read hw hcells)
    _ = Memory.take m n := List.map_snd_zip (by simp)

/-- Supplying the first `n` bytes of a buffer from offset 0 on copies its cells below `n`, where they hold values. -/
theorem Memory.read_writeBytes_take {m : Memory} {n : Nat} (hc : Memory.covers m n = true) (inp : Memory) (a : Nat) :
    Memory.read (Memory.writeBytes inp 0 (Memory.take m n)) a =
      if a < n then Memory.read m a else Memory.read inp a := by
  rw [Memory.read_writeBytes, Memory.take_length]
  by_cases ha : a < n
  · simp [ha, Memory.take, Memory.read_of_covers hc ha]
  · simp [ha]

/-- Outside phase Busy a step is the host's next move (70_reset_and_hazards.md R236). -/
theorem step_of_move {s : State} {m : HostMove} {ms : List HostMove} (hb : s.phase ≠ .busy) (hp : s.pending = m :: ms) :
    step s = hostMove m (s.setPending ms) := by
  simp [step, turn, hb, turnOutsideBusy, hp]

/-- In phase Done the copy is answered: the bytes of OUT are supplied from offset 0 on (30_encoding.md R91). -/
theorem hostMove_copyOutToIn {s : State} {m : Memory} (hd : s.phase = .done) (ho : s.out = some m) :
    hostMove .copyOutToIn s = .next (s.setInp (Memory.writeBytes s.inp 0 (Memory.bytes m))) := by
  simp [hostMove, copyOut, hd, ho]

/-- Settles O40: in Done the bytes of OUT are those of its cells below N, which the copy supplies from offset 0 on. -/
theorem copyMakesTheOutputTheNextInput : Obligations.CopyMakesTheOutputTheNextInput := by
  intro s ms hinv hd hp
  obtain ⟨m, ho, hcells⟩ := hinv.complete hd
  refine ⟨m, Memory.writeBytes s.inp 0 (Memory.take m s.latch.len), ho, ?step,
    Memory.read_writeBytes_take (Memory.covers_of_isSome_read hcells) s.inp⟩
  case step =>
    calc step s
        = hostMove .copyOutToIn (s.setPending ms) := step_of_move (by simp [hd]) hp
      _ = .next ((s.setPending ms).setInp (Memory.writeBytes s.inp 0 (Memory.bytes m))) := hostMove_copyOutToIn hd ho
      _ = .next ((s.setPending ms).setInp (Memory.writeBytes s.inp 0 (Memory.take m s.latch.len))) := by
        rw [Memory.bytes_eq_take (hinv.out_wf m ho) hcells]

end Sys2Proof.Machine

/-! PROOFS. The fix-tile codec (spec/40_fix_tile_codec.md): the nibble-reorder-unit, the index functions as maps that act within
32-byte units, the two operations, and the laws of the function `transcode` that follow. -/

namespace Sys2Proof.Machine

/-! ### The nibbles of a byte -/

/-- A byte is its two nibbles side by side. -/
theorem append_nibbles (b : Byte) : b.extractLsb' 4 4 ++ b.extractLsb' 0 4 = b :=
  (BitVec.extractLsb'_append_extractLsb'_eq_extractLsb' rfl).trans BitVec.extractLsb'_eq_self

/-- Bytes with the same nibbles are the same byte. -/
theorem eq_iff_nibbles_eq {a b : Byte} :
    a = b ↔ a.extractLsb' 4 4 = b.extractLsb' 4 4 ∧ a.extractLsb' 0 4 = b.extractLsb' 0 4 := by
  constructor
  · rintro rfl; exact ⟨rfl, rfl⟩
  · rintro ⟨hhigh, hlow⟩; rw [← append_nibbles a, hhigh, hlow, append_nibbles]

/-- The high nibble of `nibble_swap` is the low one of its argument, and the low the high (40_fix_tile_codec.md R100). -/
@[simp] theorem nibbleSwap_high (b : Byte) : (nibbleSwap b).extractLsb' 4 4 = b.extractLsb' 0 4 := by
  refine BitVec.eq_of_getLsbD_eq fun k hk => ?_
  unfold nibbleSwap
  interval_cases k <;> simp

@[simp] theorem nibbleSwap_low (b : Byte) : (nibbleSwap b).extractLsb' 0 4 = b.extractLsb' 4 4 := by
  refine BitVec.eq_of_getLsbD_eq fun k hk => ?_
  unfold nibbleSwap
  interval_cases k <;> simp

/-- `nibble_swap` is its own inverse (40_fix_tile_codec.md R101 (a)). -/
@[simp] theorem nibbleSwap_nibbleSwap (b : Byte) : nibbleSwap (nibbleSwap b) = b := by
  simp [eq_iff_nibbles_eq]

/-- The fixed points of `nibble_swap` (40_fix_tile_codec.md R101 (c)). -/
theorem nibbleSwap_eq_self_iff (b : Byte) : nibbleSwap b = b ↔ b.extractLsb' 4 4 = b.extractLsb' 0 4 := by
  rw [eq_iff_nibbles_eq, nibbleSwap_high, nibbleSwap_low]
  exact ⟨fun h => h.2, fun h => ⟨h.symm, h⟩⟩

/-- Settles O13: exchanging the nibbles twice gives the byte back, so the exchange is a bijection; its values are closed terms. -/
theorem nibbleSwapLaws : Obligations.NibbleSwapLaws :=
  ⟨nibbleSwap_nibbleSwap, Function.Involutive.bijective nibbleSwap_nibbleSwap, nibbleSwap_eq_self_iff,
    rfl, rfl, rfl, rfl, rfl, rfl⟩

/-! ### Maps of offsets that act within 32-byte units -/

/-- `f` acts on the offset within a unit alone, and keeps the unit (40_fix_tile_codec.md R103, R105, R106, R107). -/
structure UnitWise (f : Nat → Nat) : Prop where
  unit : ∀ u, ∀ j < 32, f (32 * u + j) = 32 * u + f j
  lt : ∀ j < 32, f j < 32

theorem decSrc_unitWise : UnitWise decSrc := ⟨fun u _ => decSrc_unit u, fun _ hj => (fix_index_lt_unit hj).1⟩

theorem encSrc_unitWise : UnitWise encSrc := ⟨fun u _ => encSrc_unit u, fun _ hj => (fix_index_lt_unit hj).2.1⟩

theorem encOf_unitWise : UnitWise encOf := ⟨fun u _ => encOf_unit u, fun _ hj => (fix_index_lt_unit hj).2.2.1⟩

theorem encDst_unitWise : UnitWise encDst := ⟨fun u _ => encDst_unit u, fun _ hj => (fix_index_lt_unit hj).2.2.2⟩

section
variable {f g : Nat → Nat}

theorem UnitWise.comp (hg : UnitWise g) (hf : UnitWise f) : UnitWise (g ∘ f) where
  unit u j hj := by simp only [Function.comp_apply, hf.unit u j hj, hg.unit u _ (hf.lt j hj)]
  lt j hj := hg.lt _ (hf.lt j hj)

/-- A map that acts within units, at an offset written as a unit and an offset in it. -/
theorem UnitWise.apply (hf : UnitWise f) (i : Nat) : f i = 32 * (i / 32) + f (i % 32) := by
  rw [← hf.unit _ _ (Nat.mod_lt i (by decide)), Nat.div_add_mod]

theorem UnitWise.div (hf : UnitWise f) (i : Nat) : f i / 32 = i / 32 := by
  have := hf.lt _ (Nat.mod_lt i (by decide))
  rw [hf.apply]; omega

theorem UnitWise.lt_len (hf : UnitWise f) {n i : Nat} (hn : n % 32 = 0) (hi : i < n) : f i < n := by
  have := hf.div i
  omega

/-- Maps that are inverse to each other on one unit are so on every offset. -/
theorem UnitWise.leftInverse (hg : UnitWise g) (hf : UnitWise f) (h : ∀ j < 32, g (f j) = j) :
    Function.LeftInverse g f := fun i => by
  rw [← Function.comp_apply (f := g), (hg.comp hf).apply, Function.comp_apply, h _ (Nat.mod_lt i (by decide)),
    Nat.div_add_mod]

/-- A map that acts within units and has an inverse that does permutes each unit and every whole number of them
(40_fix_tile_codec.md R106, R107). -/
theorem UnitWise.permutes (hf : UnitWise f) (hg : UnitWise g) (hl : Function.LeftInverse g f)
    (hr : Function.RightInverse g f) {n : Nat} (hn : n % 32 = 0) :
    (∀ i < n, f i < n ∧ f i / 32 = i / 32) ∧ ∀ a < n, ∃! i, i < n ∧ f i = a := by
  refine ⟨fun i hi => ⟨hf.lt_len hn hi, hf.div i⟩, fun a ha => ⟨g a, ⟨hg.lt_len hn ha, hr a⟩, ?unique⟩⟩
  case unique => rintro i ⟨-, rfl⟩; exact (hl i).symm

end

/-! ### The index functions, inverse to each other -/

theorem encOf_decSrc : Function.LeftInverse encOf decSrc :=
  encOf_unitWise.leftInverse decSrc_unitWise (by decide)

theorem decSrc_encOf : Function.LeftInverse decSrc encOf :=
  decSrc_unitWise.leftInverse encOf_unitWise (by decide)

/-- Settles O16: unit by unit, and in one unit offset by offset. -/
theorem fixIndexFunctionsAreInverse : Obligations.FixIndexFunctionsAreInverse := fun j =>
  ⟨encOf_decSrc j, decSrc_encOf j⟩

/-- The map FIX.ENC reads by is `encOf` after the map it writes by (40_fix_tile_codec.md R105, R108). -/
theorem encSrc_eq_comp : encSrc = encOf ∘ encDst := funext fun i => (encOf_encDst i).symm

/-- Settles O17: each index function acts within units and has an inverse that does: `encOf` for `decSrc`, itself for `encDst`,
and for `encSrc`, their composite, the composite of the two inverses. -/
theorem fixIndexFunctionsPermuteTheBuffer : Obligations.FixIndexFunctionsPermuteTheBuffer := by
  intro n hn f hf
  simp only [List.mem_cons, List.not_mem_nil, or_false] at hf
  rcases hf with rfl | rfl | rfl
  · exact decSrc_unitWise.permutes encOf_unitWise encOf_decSrc decSrc_encOf hn
  · refine encSrc_unitWise.permutes (encDst_unitWise.comp decSrc_unitWise) ?_ ?_ hn <;> rw [encSrc_eq_comp]
    · exact Function.LeftInverse.comp decSrc_encOf encDst_encDst
    · exact Function.LeftInverse.comp encDst_encDst encOf_decSrc
  · exact encDst_unitWise.permutes encDst_unitWise encDst_encDst encDst_encDst hn

/-! ### The bytes of the Fix codec -/

/-- The offset of the input byte that an output byte of the Fix codec takes (40_fix_tile_codec.md R103, R108). -/
def fixSource : Direction → Nat → Nat
  | .decode => decSrc
  | .encode => encOf

theorem outByte_fix (d : Direction) (f : Nat → Byte) (j : Nat) :
    outByte .fix d f j = nibbleSwap (f (fixSource d j)) := by cases d <;> rfl

theorem fixSource_unitWise : ∀ d, UnitWise (fixSource d)
  | .decode => decSrc_unitWise
  | .encode => encOf_unitWise

/-- The two directions undo each other (40_fix_tile_codec.md R109). -/
theorem fixSource_fixSource {d d' : Direction} (h : d ≠ d') (j : Nat) : fixSource d (fixSource d' j) = j := by
  cases d <;> cases d'
  · exact absurd rfl h
  · exact encOf_decSrc j
  · exact decSrc_encOf j
  · exact absurd rfl h

/-- The table of a direction's index function on one unit gives the mapping of every unit (40_fix_tile_codec.md R104, R108). -/
theorem map_outByte_fix_unit (d : Direction) {table : List Nat} (ht : (List.range 32).map (fixSource d) = table)
    (f : Nat → Byte) (u : Nat) :
    (List.range 32).map (fun j => outByte .fix d f (32 * u + j)) = table.map (fun s => nibbleSwap (f (32 * u + s))) := by
  rw [← ht, List.map_map]
  refine List.map_congr_left fun j hj => ?_
  rw [outByte_fix, (fixSource_unitWise d).unit u j (List.mem_range.1 hj), Function.comp_apply]

/-- Settles O14: the table of `decSrc` on one unit. -/
theorem fixDecodeTableOfEveryUnit : Obligations.FixDecodeTableOfEveryUnit :=
  map_outByte_fix_unit .decode (by decide)

/-- `x & ~31` is the base of the unit that holds `x` (00_scope.md R10). -/
theorem clearLow_five (x : Nat) : clearLow 5 x = x - x % 32 := by rw [clearLow_eq]; omega

/-- Settles O15: the table of `encOf` on one unit, and its definition with the unit's base written as a difference. -/
theorem fixEncodeTableOfEveryUnit : Obligations.FixEncodeTableOfEveryUnit :=
  ⟨map_outByte_fix_unit .encode (by decide), fun f h => by rw [outByte, encOf, clearLow_five]⟩

/-! ### Pixels -/

/-- The hardware byte that holds the pixels of linear byte `4r + x/2` (40_fix_tile_codec.md R112). -/
theorem decSrc_pixel (u : Nat) {r x : Nat} (hr : r < 8) (hx : x < 8) :
    decSrc (32 * u + 4 * r + x / 2) = 32 * u + 8 * column (x / 2) + (r ^^^ 1) := by
  have unit : ∀ r < 8, ∀ k < 4, decSrc (4 * r + k) = 8 * column k + (r ^^^ 1) := by decide
  rw [Nat.add_assoc, decSrc_unit u (by omega), unit r hr _ (by omega), Nat.add_assoc]

/-- The nibble of a pixel, where which of the two it is depends on `p`, is the other one on the other side
(40_fix_tile_codec.md R112). -/
theorem nibbleSwap_ite_high (b : Byte) (p : Prop) [Decidable p] :
    (nibbleSwap b).extractLsb' (if p then 4 else 0) 4 = b.extractLsb' (if p then 0 else 4) 4 := by
  split <;> simp

theorem nibbleSwap_ite_low (b : Byte) (p : Prop) [Decidable p] :
    (nibbleSwap b).extractLsb' (if p then 0 else 4) 4 = b.extractLsb' (if p then 4 else 0) 4 := by
  split <;> simp

/-- Settles O58: decode reads the hardware byte of the pixel's linear byte, encode goes back, and either exchanges the nibbles. -/
theorem fixTilePixelsAreWhereTheyBelong : Obligations.FixTilePixelsAreWhereTheyBelong := by
  intro f u r x hr hx
  have hdec := decSrc_pixel u hr hx
  constructor
  · rw [outByte, hdec, nibbleSwap_ite_high]
  · rw [outByte, ← hdec, encOf_decSrc, nibbleSwap_ite_low]

/-! ### The two operations -/

/-- The lengths an operation refuses (42_dispatcher.md R175). -/
theorem lengthOk_eq_false_iff {c : Category} {d : Direction} {n : Nat} :
    lengthOk c d n = false ↔ n = 0 ∨ n % granule c d ≠ 0 := by
  rw [← Bool.not_eq_true, lengthOk_iff]; omega

/-- Outside phase Busy a refused length ends in the error Length (42_dispatcher.md R170, 60_exceptions.md R200, R209). -/
theorem exec_fails_of_length {i : Instr} {s : State} (hb : s.phase ≠ .busy)
    (hl : lengthOk i.category i.direction s.len = false) :
    ∃ t, exec i s = .next t ∧ FailedWith s t .length := by
  refine ⟨s.beginStart.raiseError .length, ?_, rfl, rfl, rfl, rfl, rfl, rfl⟩
  rw [exec_eq_operate, operate, if_neg hb, start, if_pos hl]
  rfl

/-- For a ready host that does not look in, an operation is the engine's run from the state Start leaves (log 5). -/
theorem exec_of_ready {i : Instr} {s : State} (hr : s.Ready i) (hw : s.watch = false) :
    exec i s = engineRun (iterationOf i) s.len s.beginStart.beginOperation := by
  simp [exec_eq_operate, operate, hr.not_busy, start, hr.length_ok, hr.supplied, hw, engineTurn]

/-- For a ready host that does not look in, an operation completes with its closed form in OUT (42_dispatcher.md R177, R183). -/
theorem exec_completes {i : Instr} {s : State} (hr : s.Ready i) (hw : s.watch = false) :
    ∃ t, exec i s = .next t ∧ CompletedWith s t (outByte i.category i.direction (Memory.byteAt s.inp)) := by
  obtain ⟨t, m, hrun, ht, -, hcells⟩ :=
    progress_run s.len _ [] (progress_start hr.length_ok hr.supplied) rfl (Nat.sub_le ..)
  refine ⟨t, (exec_of_ready hr hw).trans hrun, ?_⟩
  rw [ht]
  exact ⟨rfl, rfl, ⟨m, rfl, hcells⟩, rfl, rfl, rfl⟩

/-- Settles O22: a refused length fails, an accepted one completes with the closed form; the fixed points are read off one unit. -/
theorem fixDecDecodesTheBuffer : Obligations.FixDecDecodesTheBuffer := by
  refine ⟨rfl, fun s hb => ⟨fun hl => exec_fails_of_length hb (lengthOk_eq_false_iff.2 hl), ?completes, by decide⟩⟩
  case completes =>
    intro hpos hmod hc hw
    exact exec_completes ⟨hb, (lengthOk_iff ..).2 ⟨hpos, hmod⟩, hc⟩ hw

/-- Settles O23: as for FIX.DEC; the cell at `i xor 1` takes the byte that `encSrc` names, as `encOf` of it does. -/
theorem fixEncEncodesTheBuffer : Obligations.FixEncEncodesTheBuffer := by
  refine ⟨rfl, fun s hb => ⟨fun hl => exec_fails_of_length hb (lengthOk_eq_false_iff.2 hl), ?completes, by decide⟩⟩
  case completes =>
    intro hpos hmod hc hw
    obtain ⟨t, ht, hdone⟩ := exec_completes (i := .fixEnc) ⟨hb, (lengthOk_iff ..).2 ⟨hpos, hmod⟩, hc⟩ hw
    obtain ⟨m, hm, hcells⟩ := hdone.out
    refine ⟨t, m, ht, hdone, hm, fun i hi => ?_⟩
    rw [← encDst, hcells, if_pos (encDst_lt hmod hi), ← encOf_encDst]
    rfl

/-! ### One iteration -/

/-- Below N, a step of the engine puts what the iteration gives, and completes if it was the last (42_dispatcher.md R182). -/
theorem engineStep_of_ok {f : Iteration} {s : State} {m : Memory} {e : Engine} (ho : s.out = some m)
    (hi : s.regs.i < s.latch.len) (he : f s.inp s.latch.len { regs := s.regs, out := m } = .ok e) :
    engineStep f s = .next (s.putEngine e).completeIfAllDone := by
  rw [engineStep, if_neg (Nat.not_le.2 hi), ho]
  simp only [he]

/-- Settles O29: an operation in phase Busy that the host watches is one engine step, and the iteration's result is known. -/
theorem fixStepWritesItsByte : Obligations.FixStepWritesItsByte := by
  intro s m hb hw ho hi hn hc
  exact ⟨(exec_busy hb hw).trans (engineStep_of_ok ho hi (fixDecIter_eq _ hc hn hi)),
    (exec_busy hb hw).trans (engineStep_of_ok ho hi (fixEncIter_eq _ hc hn hi))⟩

/-! ### Laws of the function `transcode` -/

/-- A buffer is the list of its bytes. -/
theorem map_byteAt_range (bs : List Byte) : (List.range bs.length).map (byteAt bs) = bs :=
  List.ext_getElem (by simp) fun j hj hj' => by simp [byteAt, hj']

/-- One direction of the Fix codec undoes the other (40_fix_tile_codec.md R114). -/
theorem transcode_fix_round_trip {bs : List Byte} (hpos : 0 < bs.length) (hmod : bs.length % 32 = 0) {d d' : Direction}
    (hd : d ≠ d') : ∃ cs, transcode bs .fix d = .ok cs ∧ transcode cs .fix d' = .ok bs := by
  have hok : ∀ d, lengthOk .fix d bs.length = true := fun d =>
    (lengthOk_iff ..).2 ⟨hpos, by cases d <;> exact hmod⟩
  refine ⟨_, transcode_ok (hok d), ?_⟩
  rw [transcode_ok (by simpa using hok d')]
  conv_rhs => rw [← map_byteAt_range bs]
  rw [List.length_map, List.length_range]
  refine congrArg Except.ok (List.map_congr_left fun j hj => ?_)
  have hlt := (fixSource_unitWise d').lt_len hmod (List.mem_range.1 hj)
  rw [outByte_fix, byteAt_map _ _ hlt, outByte_fix, nibbleSwap_nibbleSwap, fixSource_fixSource hd]

/-- Settles O53: the round trip in both orders of the directions. -/
theorem fixRoundTripIsTheIdentity : Obligations.FixRoundTripIsTheIdentity := fun _ hpos hmod =>
  ⟨transcode_fix_round_trip hpos hmod (by decide), transcode_fix_round_trip hpos hmod (by decide)⟩

/-! ### Granules -/

theorem planarDecByte_granule (f : Nat → Byte) (u : Nat) {k : Nat} (hk : k < 4) :
    planarDecByte f (4 * u + k) = planarDecByte (fun a => f (4 * u + a)) k := by
  have hzero := planarDecByte_group (fun a => f (4 * u + a)) (g := 0) (by decide) hk
  rw [Nat.zero_add] at hzero
  rw [planarDecByte_group f (Nat.mul_mod_right ..) hk, hzero]
  rfl

theorem planarEncByte_granule (f : Nat → Byte) (u : Nat) {j : Nat} (hj : j < 128) :
    planarEncByte f (128 * u + j) = planarEncByte (fun a => f (128 * u + a)) j := by
  have hbase : clearLow 2 (128 * u + j) ^^^ destXor = 128 * u + (clearLow 2 j ^^^ destXor) := by
    have hclear : clearLow 2 (128 * u + j) = 128 * u + clearLow 2 j := by rw [clearLow_eq, clearLow_eq]; omega
    rw [hclear, xor_destXor_block u (by rw [clearLow_eq]; omega)]
    rfl
  have hlane : (128 * u + j) &&& 3 = j &&& 3 := by rw [and_three, and_three]; omega
  simp only [planarEncByte, hbase, hlane, Nat.add_assoc]

/-- An output byte of a granule is that of the input from the granule's base on (40_fix_tile_codec.md R113,
41_planar_sprite_codec.md R146). -/
theorem outByte_granule (c : Category) (d : Direction) (f : Nat → Byte) (u : Nat) {j : Nat} (hj : j < granule c d) :
    outByte c d f (granule c d * u + j) = outByte c d (fun a => f (granule c d * u + a)) j := by
  have fix : j < 32 → outByte .fix d f (32 * u + j) = outByte .fix d (fun a => f (32 * u + a)) j := fun hj => by
    rw [outByte_fix, outByte_fix, (fixSource_unitWise d).unit u j hj]
  cases c <;> cases d
  · exact fix hj
  · exact fix hj
  · exact planarEncByte_granule f u hj
  · exact planarDecByte_granule f u hj
  · exact planarEncByte_granule f u hj
  · exact planarDecByte_granule f u hj

theorem granule_pos (c : Category) (d : Direction) : 0 < granule c d := by cases c <;> cases d <;> decide

/-- A single granule passes the length check (42_dispatcher.md R175). -/
theorem lengthOk_granule (c : Category) (d : Direction) : lengthOk c d (granule c d) = true :=
  (lengthOk_iff ..).2 ⟨granule_pos c d, Nat.mod_self _⟩

/-- What `transcode` answers with a buffer (42_dispatcher.md R183). -/
theorem transcode_eq_ok {bs cs : List Byte} {c : Category} {d : Direction} (h : transcode bs c d = .ok cs) :
    lengthOk c d bs.length = true ∧ cs = (List.range bs.length).map (outByte c d (byteAt bs)) := by
  unfold transcode at h
  split at h
  · next hl => cases h; exact ⟨hl, rfl⟩
  · cases h

theorem byteAt_slice (bs : List Byte) (g : Nat) {n a : Nat} (ha : a < n) :
    byteAt ((bs.drop g).take n) a = byteAt bs (g + a) := by
  simp [byteAt, List.getD_eq_getElem?_getD, ha]

/-- A slice of the list of the first values of a function. -/
theorem slice_map_range {n g k : Nat} (h : g + k ≤ n) (f : Nat → Byte) :
    (((List.range n).map f).drop g).take k = (List.range k).map fun j => f (g + j) :=
  List.ext_getElem (by simp; omega) fun j _ _ => by simp

/-- Settles O57: the granule of the output, byte by byte, is the output of the granule of the input. -/
theorem granulesAreIndependent : Obligations.GranulesAreIndependent := by
  intro bs cs c d h u hu
  obtain ⟨-, rfl⟩ := transcode_eq_ok h
  rw [Nat.succ_mul] at hu
  have hlen : ((bs.drop (u * granule c d)).take (granule c d)).length = granule c d := by simp; omega
  rw [transcode_ok (by rw [hlen]; exact lengthOk_granule c d), hlen, slice_map_range hu]
  refine congrArg Except.ok (List.map_congr_left fun j hj => ?_)
  have hj : j < granule c d := List.mem_range.1 hj
  rw [Nat.mul_comm u, outByte_granule c d _ u hj]
  exact outByte_congr c d (lengthOk_granule c d) hj fun a ha => byteAt_slice bs _ ha

end Sys2Proof.Machine

/-! PROOFS. The planar-sprite codec (spec/41_planar_sprite_codec.md): the two unit functions on a group of four bytes, pixel by
pixel; the placement of planar encode; the four operations and their iterations; and the two composites of the directions. -/

namespace Sys2Proof.Machine

/-! ### The pixels of a group -/

/-- The bit of a linear byte that is bit `b` of pixel `q`: the even pixel of a pair is the high nibble
(41_planar_sprite_codec.md R132, R155). -/
def pixelBit (q b : Nat) : Nat := (if q % 2 = 0 then 4 else 0) + b

/-- `spr_dec_unit` on the group of the bytes `f 0` to `f 3` (41_planar_sprite_codec.md R133). -/
def decodeGroup (f : Nat → Byte) (k : Nat) : Byte := sprDecUnit (f 0) (f 1) (f 2) (f 3) k

/-- `spr_enc_unit` on the group of the bytes `f 0` to `f 3` (41_planar_sprite_codec.md R139). -/
def encodeGroup (f : Nat → Byte) (k : Nat) : Byte := sprEncUnit (f 0) (f 1) (f 2) (f 3) k

/-- Picking from four values of a function is the function. -/
theorem pick4_apply (f : Nat → Byte) {k : Nat} (hk : k < 4) : pick4 (f 0) (f 1) (f 2) (f 3) k = f k := by
  interval_cases k <;> rfl

/-- The byte of a hardware group that is plane `b` stands at offset `b xor 1` (41_planar_sprite_codec.md R131, R155). -/
theorem pick4_planes (f : Nat → Byte) {b : Nat} (hb : b < 4) : pick4 (f 1) (f 0) (f 3) (f 2) b = f (b ^^^ 1) := by
  interval_cases b <;> rfl

/-- Two bytes in which the two pixels of one pair agree are equal. -/
theorem eq_of_pixels_eq {k : Nat} {x y : Byte}
    (h : ∀ q b, q / 2 = k → b < 4 → x.getLsbD (pixelBit q b) = y.getLsbD (pixelBit q b)) : x = y := by
  refine BitVec.eq_of_getLsbD_eq fun r hr => ?_
  by_cases hlow : r < 4
  · have hbit : pixelBit (2 * k + 1) r = r := by rw [pixelBit, if_neg (by omega)]; omega
    simpa [hbit] using h (2 * k + 1) r (by omega) hlow
  · have hbit : pixelBit (2 * k) (r - 4) = r := by rw [pixelBit, if_pos (by omega)]; omega
    simpa [hbit] using h (2 * k) (r - 4) (by omega) (by omega)

/-- Planar decode takes bit `b` of pixel `q` from bit `q` of plane `b` (41_planar_sprite_codec.md R133, R155). -/
theorem decodeGroup_pixel (f : Nat → Byte) {q b : Nat} (hb : b < 4) :
    (decodeGroup f (q / 2)).getLsbD (pixelBit q b) = (f (b ^^^ 1)).getLsbD q := by
  rw [← pick4_planes f hb, ← decPix_getLsbD _ _ _ _ hb, decodeGroup, sprDecUnit, pixelBit]
  by_cases hq : q % 2 = 0
  · have hpix : 2 * (q / 2) = q := by omega
    rw [if_pos hq, hpix]
    interval_cases b <;> simp
  · have hpix : 2 * (q / 2) + 1 = q := by omega
    rw [if_neg hq, hpix]
    interval_cases b <;> simp

/-- Bit `q` of plane `b` of a linear group is bit `b` of its pixel `q` (41_planar_sprite_codec.md R139, R155). -/
theorem plane_pixel (f : Nat → Byte) {q b : Nat} (hq : q < 8) (hb : b < 4) :
    (plane (f 0) (f 1) (f 2) (f 3) b).getLsbD q = (f (q / 2)).getLsbD (pixelBit q b) := by
  rw [plane_getLsbD _ _ _ _ hb hq, encPix_getLsbD _ _ _ _ hb, pick4_apply f (by omega), pixelBit]
  split <;> simp

/-- Planar encode puts plane `b` at offset `3 - b` (41_planar_sprite_codec.md R139, R155). -/
theorem encodeGroup_pixel (f : Nat → Byte) {q b : Nat} (hq : q < 8) (hb : b < 4) :
    (encodeGroup f (3 - b)).getLsbD q = (f (q / 2)).getLsbD (pixelBit q b) := by
  rw [encodeGroup, sprEncUnit, Nat.sub_sub_self (by omega), plane_pixel f hq hb]

theorem xor_two_lt {b : Nat} (hb : b < 4) : b ^^^ 2 < 4 := Nat.xor_lt_two_pow (n := 2) hb (by decide)

/-- `rot2n` moves bit `b` of a nibble to bit `b xor 2` (41_planar_sprite_codec.md R144). -/
theorem rot2n_pixel (x : Byte) {q b : Nat} (hb : b < 4) :
    (rot2n x).getLsbD (pixelBit q b) = x.getLsbD (pixelBit q (b ^^^ 2)) := by
  unfold rot2n pixelBit
  split <;> interval_cases b <;> simp

/-- `rot2n` is its own inverse. -/
@[simp] theorem rot2n_rot2n (x : Byte) : rot2n (rot2n x) = x := by
  refine eq_of_pixels_eq (k := 0) fun q b _ hb => ?_
  rw [rot2n_pixel _ hb, rot2n_pixel _ (xor_two_lt hb), Nat.xor_xor_cancel_right]

/-! ### The unit functions, one after the other -/

/-- Encode after decode exchanges the byte pairs of a group (41_planar_sprite_codec.md R143). -/
theorem encodeGroup_decodeGroup (f : Nat → Byte) {k : Nat} (hk : k < 4) :
    encodeGroup (decodeGroup f) k = f (k ^^^ 2) := by
  refine BitVec.eq_of_getLsbD_eq fun q hq => ?_
  have hplane : (3 - k) ^^^ 1 = k ^^^ 2 := by interval_cases k <;> rfl
  rw [← Nat.sub_sub_self (show k ≤ 3 by omega), encodeGroup_pixel _ hq (by omega), decodeGroup_pixel _ (by omega),
    hplane, Nat.sub_sub_self (by omega)]

/-- Decode after encode rotates every nibble by two (41_planar_sprite_codec.md R144). -/
theorem decodeGroup_encodeGroup (f : Nat → Byte) {k : Nat} (hk : k < 4) :
    decodeGroup (encodeGroup f) k = rot2n (f k) := by
  refine eq_of_pixels_eq (k := k) fun q b hq hb => ?_
  subst hq
  have hplane : b ^^^ 1 = 3 - (b ^^^ 2) := by interval_cases b <;> rfl
  rw [decodeGroup_pixel _ hb, hplane, encodeGroup_pixel _ (by omega) (xor_two_lt hb), rot2n_pixel _ hb]

/-- Settles O19: pixel by pixel, decode finds plane `b` where the inverse has put it. -/
theorem planarDecodeHasItsOwnInverse : Obligations.PlanarDecodeHasItsOwnInverse := by
  intro l0 l1 l2 l3 k hk
  refine eq_of_pixels_eq (k := k) fun q b hq hb => ?_
  subst hq
  have hpixel := decodeGroup_pixel (sprDecInverse l0 l1 l2 l3) (q := q) hb
  rw [sprDecInverse, Nat.xor_xor_cancel_right] at hpixel
  exact hpixel.trans (plane_pixel (pick4 l0 l1 l2 l3) (by omega) hb)

/-- Four bytes, as a group that the unit functions take. -/
def groupBytes (h : Byte × Byte × Byte × Byte) : Nat → Byte := pick4 h.1 h.2.1 h.2.2.1 h.2.2.2

/-- The first four values of a function, as four bytes. -/
def groupTuple (f : Nat → Byte) : Byte × Byte × Byte × Byte := (f 0, f 1, f 2, f 3)

theorem groupTuple_congr {f g : Nat → Byte} (h : ∀ k < 4, f k = g k) : groupTuple f = groupTuple g := by
  simp only [groupTuple, h 0 (by decide), h 1 (by decide), h 2 (by decide), h 3 (by decide)]

/-- `spr_dec_unit` from four bytes to four bytes (41_planar_sprite_codec.md R134). -/
def decodeTuple (h : Byte × Byte × Byte × Byte) : Byte × Byte × Byte × Byte := groupTuple (decodeGroup (groupBytes h))

/-- `spr_enc_unit` from four bytes to four bytes (41_planar_sprite_codec.md R142). -/
def encodeTuple (h : Byte × Byte × Byte × Byte) : Byte × Byte × Byte × Byte := groupTuple (encodeGroup (groupBytes h))

theorem encodeTuple_decodeTuple (h : Byte × Byte × Byte × Byte) :
    encodeTuple (decodeTuple h) = groupTuple fun k => groupBytes h (k ^^^ 2) :=
  groupTuple_congr fun _ hk => encodeGroup_decodeGroup (groupBytes h) hk

theorem decodeTuple_encodeTuple (h : Byte × Byte × Byte × Byte) :
    decodeTuple (encodeTuple h) = groupTuple fun k => rot2n (groupBytes h k) :=
  groupTuple_congr fun _ hk => decodeGroup_encodeGroup (groupBytes h) hk

/-- Exchanging the byte pairs of a group twice gives the group back. -/
theorem encodeTuple_comp_decodeTuple_involutive : Function.Involutive (encodeTuple ∘ decodeTuple) := fun h => by
  simp only [Function.comp_apply, encodeTuple_decodeTuple]
  rfl

/-- Rotating every nibble by two twice gives the group back. -/
theorem decodeTuple_comp_encodeTuple_involutive : Function.Involutive (decodeTuple ∘ encodeTuple) := fun h => by
  simp only [Function.comp_apply, decodeTuple_encodeTuple]
  simp [groupTuple, groupBytes, pick4]

/-- Settles O18: both composites are involutions, so each unit function is injective as the inner one and surjective as the
outer one. -/
theorem planarUnitsAreBijective : Obligations.PlanarUnitsAreBijective :=
  have encDec := encodeTuple_comp_decodeTuple_involutive.bijective
  have decEnc := decodeTuple_comp_encodeTuple_involutive.bijective
  show Function.Bijective decodeTuple ∧ Function.Bijective encodeTuple from
    ⟨⟨encDec.injective.of_comp, decEnc.surjective.of_comp⟩, decEnc.injective.of_comp, encDec.surjective.of_comp⟩

/-! ### Placement -/

/-- A lane counted from a group's base sets the two low bits. -/
theorem xor_lane {g k : Nat} (hg : g % 4 = 0) (hk : k < 4) : g ^^^ k = g + k := by
  have hspan := xor_in_span 2 (g / 4) (j := 0) (by decide) hk
  rw [Nat.zero_xor] at hspan
  rwa [show 2 ^ 2 * (g / 4) + 0 = g by omega, show 2 ^ 2 * (g / 4) = g by omega] at hspan

/-- `xor 0x40` moves the lower half of each 128-byte block up by 64 and the upper half down (41_planar_sprite_codec.md R140). -/
theorem xor_destXor_eq (g : Nat) : g ^^^ destXor = if g % 128 < 64 then g + 64 else g - 64 := by
  have block : ∀ j < 128, j ^^^ 64 = if j < 64 then j + 64 else j - 64 := by decide
  have hmod : g % 128 < 128 := Nat.mod_lt _ (by decide)
  rw [← Nat.div_add_mod g 128, xor_destXor_block _ hmod, block _ hmod, Nat.mul_add_mod, Nat.mod_mod]
  split <;> omega

/-- The second reading of R140: the lane is added to the constant before the `xor` (41_planar_sprite_codec.md R140). -/
theorem encPlace_eq_xor {g bp : Nat} (hg : g % 4 = 0) (hbp : bp < 4) : encPlace g bp = g ^^^ (destXor + bp) := by
  rw [encPlace_eq g hbp, ← xor_lane (xor_destXor_mod_four hg) hbp, Nat.xor_assoc, xor_lane (by decide) hbp]

/-- The one group and lane whose destination is `a` (41_planar_sprite_codec.md R141). -/
theorem encPlace_eq_iff {g bp a : Nat} (hg : g % 4 = 0) (hbp : bp < 4) :
    encPlace g bp = a ↔ g = clearLow 2 a ^^^ destXor ∧ bp = a % 4 := by
  have hbase := xor_destXor_mod_four hg
  rw [encPlace_eq g hbp, ← xor_destXor_eq_iff, clearLow_eq]
  omega

/-- Settles O20: the readings differ by the association of `xor`; the halves are read off one block. -/
theorem planarPlacementReadingsAgree : Obligations.PlanarPlacementReadingsAgree := by
  refine ⟨fun i bp hbp => ⟨encPlace_eq _ hbp, encPlace_eq_xor (clearLow_two_mod i) hbp⟩,
    fun g => ⟨fun hlow => ?lower, fun hhigh => ?upper⟩, by decide, by decide, by decide⟩
  case lower => exact (xor_destXor_eq g).trans (if_pos hlow)
  case upper => exact (xor_destXor_eq g).trans (if_neg (Nat.not_lt.2 hhigh))

/-- In a buffer that ends inside a block, some group's first lane goes past the end (41_planar_sprite_codec.md R141): the first
group of the last block if its lower half is not full, else the group 64 bytes before the end. -/
theorem exists_encPlace_ge {n : Nat} (h4 : n % 4 = 0) (h128 : n % 128 ≠ 0) :
    ∃ g, g % 4 = 0 ∧ g < n ∧ n ≤ encPlace g 0 := by
  refine ⟨n - n % 128 + (n % 128 - 64), by omega, by omega, ?_⟩
  rw [encPlace_eq _ (by decide), xor_destXor_eq, if_pos (by omega)]
  omega

theorem encPlace_lt {n g bp : Nat} (hn : n % 128 = 0) (hg : g % 4 = 0) (hlt : g < n) (hbp : bp < 4) :
    encPlace g bp < n := by
  have := xor_destXor_lt hn hlt hg
  rw [encPlace_eq g hbp]
  omega

/-- Settles O21: whole blocks are closed under the placement, a part of one is not; and the placement has an inverse. -/
theorem planarDestinationsFitExactlyBlocks : Obligations.PlanarDestinationsFitExactlyBlocks := by
  refine ⟨xor_destXor_self, fun n _ h4 => ⟨⟨fun hfit => ?whole, fun hn g bp hg hlt hbp => encPlace_lt hn hg hlt hbp⟩,
    fun hn a ha => ?once⟩⟩
  case whole =>
    by_contra hn
    obtain ⟨g, hg, hlt, hge⟩ := exists_encPlace_ge h4 hn
    exact absurd (hfit g 0 hg hlt (by decide)) (Nat.not_lt.2 hge)
  case once =>
    have hbase := xor_destXor_mod_four (clearLow_two_mod a)
    have hlt := xor_destXor_lt hn (show clearLow 2 a < n by rw [clearLow_eq]; omega) (clearLow_two_mod a)
    have hlane : a % 4 < 4 := Nat.mod_lt _ (by decide)
    refine ⟨(clearLow 2 a ^^^ destXor, a % 4),
      ⟨hbase, by omega, hlane, (encPlace_eq_iff hbase hlane).2 ⟨rfl, rfl⟩⟩, ?_⟩
    rintro ⟨g, bp⟩ ⟨hg, -, hbp, hplace⟩
    obtain ⟨rfl, rfl⟩ := (encPlace_eq_iff hg hbp).1 hplace
    rfl

/-! ### The four operations -/

/-- For a ready host that does not look in, an operation completes with its closed form in each cell of OUT
(42_dispatcher.md R177, R183). -/
theorem exec_completes_cells {i : Instr} {s : State} (hr : s.Ready i) (hw : s.watch = false) :
    ∃ t m, exec i s = .next t ∧ CompletedWith s t (outByte i.category i.direction (Memory.byteAt s.inp)) ∧
      t.out = some m ∧
      ∀ a < s.len, Memory.read m a = some (outByte i.category i.direction (Memory.byteAt s.inp) a) := by
  obtain ⟨t, ht, hdone⟩ := exec_completes hr hw
  obtain ⟨m, hm, hcells⟩ := hdone.out
  exact ⟨t, m, ht, hdone, hm, fun a ha => (hcells a).trans (if_pos ha)⟩

/-- Planar decode of the buffer, group by group, and the lengths it refuses (41_planar_sprite_codec.md R150, R152). -/
theorem exec_planarDec {i : Instr} (hbyte : outByte i.category i.direction = planarDecByte)
    (hgran : granule i.category i.direction = 4) {s : State} (hb : s.phase ≠ .busy) :
    ((s.len = 0 ∨ s.len % 4 ≠ 0) → ∃ t, exec i s = .next t ∧ FailedWith s t .length) ∧
    (0 < s.len → s.len % 4 = 0 → Memory.covers s.inp s.len = true → s.watch = false →
      ∃ t m, exec i s = .next t ∧ CompletedWith s t (planarDecByte (Memory.byteAt s.inp)) ∧ t.out = some m ∧
        ∀ g k, g % 4 = 0 → g < s.len → k < 4 → Memory.read m (g + k) = some (decGroupByte s.inp g k)) := by
  refine ⟨fun hl => exec_fails_of_length hb (lengthOk_eq_false_iff.2 (by rwa [hgran])), fun hpos hmod hc hw => ?_⟩
  obtain ⟨t, m, ht, hdone, hm, hcells⟩ :=
    exec_completes_cells ⟨hb, (lengthOk_iff ..).2 ⟨hpos, by rwa [hgran]⟩, hc⟩ hw
  rw [hbyte] at hdone hcells
  refine ⟨t, m, ht, hdone, hm, fun g k hg hlt hk => ?_⟩
  rw [hcells _ (by omega), planarDecByte_group _ hg hk]
  rfl

/-- Planar encode of the buffer, group by group at its place, and the lengths it refuses (41_planar_sprite_codec.md R151,
R153). -/
theorem exec_planarEnc {i : Instr} (hbyte : outByte i.category i.direction = planarEncByte)
    (hgran : granule i.category i.direction = 128) {s : State} (hb : s.phase ≠ .busy) :
    ((s.len = 0 ∨ s.len % 128 ≠ 0) → ∃ t, exec i s = .next t ∧ FailedWith s t .length) ∧
    (0 < s.len → s.len % 128 = 0 → Memory.covers s.inp s.len = true → s.watch = false →
      ∃ t m, exec i s = .next t ∧ CompletedWith s t (planarEncByte (Memory.byteAt s.inp)) ∧ t.out = some m ∧
        ∀ g k, g % 4 = 0 → g < s.len → k < 4 → Memory.read m (encPlace g k) = some (encGroupByte s.inp g k)) := by
  refine ⟨fun hl => exec_fails_of_length hb (lengthOk_eq_false_iff.2 (by rwa [hgran])), fun hpos hmod hc hw => ?_⟩
  obtain ⟨t, m, ht, hdone, hm, hcells⟩ :=
    exec_completes_cells ⟨hb, (lengthOk_iff ..).2 ⟨hpos, by rwa [hgran]⟩, hc⟩ hw
  rw [hbyte] at hdone hcells
  refine ⟨t, m, ht, hdone, hm, fun g k hg hlt hk => ?_⟩
  rw [hcells _ (encPlace_lt hmod hg hlt hk), planarEncByte_group _ hg hk]
  rfl

/-- Settles O24: a refused length fails, an accepted one completes with each group decoded. -/
theorem cdsDecDecodesTheBuffer : Obligations.CdsDecDecodesTheBuffer :=
  ⟨rfl, fun _ hb => exec_planarDec (i := .cdsDec) rfl rfl hb⟩

/-- Settles O25: a refused length fails, an accepted one completes with each group encoded at its place. -/
theorem cdsEncEncodesTheBuffer : Obligations.CdsEncEncodesTheBuffer :=
  ⟨rfl, fun _ hb => exec_planarEnc (i := .cdsEnc) rfl rfl hb⟩

/-- Settles O26: as for CDS.DEC. -/
theorem sprDecDecodesTheBuffer : Obligations.SprDecDecodesTheBuffer :=
  ⟨rfl, fun _ hb => exec_planarDec (i := .sprDec) rfl rfl hb⟩

/-- Settles O27: as for CDS.ENC. -/
theorem sprEncEncodesTheBuffer : Obligations.SprEncEncodesTheBuffer :=
  ⟨rfl, fun _ hb => exec_planarEnc (i := .sprEnc) rfl rfl hb⟩

/-! ### One iteration, and four -/

theorem iterationOf_planarDec {i : Instr} (hi : i ∈ [Instr.sprDec, Instr.cdsDec]) : iterationOf i = planarDecIter := by
  fin_cases hi <;> rfl

theorem iterationOf_planarEnc {i : Instr} (hi : i ∈ [Instr.sprEnc, Instr.cdsEnc]) : iterationOf i = planarEncIter := by
  fin_cases hi <;> rfl

/-- Settles O30: in phase Busy the operation is one engine step, and the iteration writes the four cells of its group. -/
theorem planarDecodeStepWritesItsGroup : Obligations.PlanarDecodeStepWritesItsGroup := by
  intro s m i hi hb hw ho hlt hc
  obtain ⟨w, h, hiter⟩ := planarDecIter_eq { regs := s.regs, out := m } hc hlt
  have hstep := engineStep_of_ok ho (by omega) hiter
  rw [← iterationOf_planarDec hi, ← exec_busy hb hw] at hstep
  refine ⟨_, _, hstep, State.completeIfAllDone_out _, by simp, by simp [State.completeIfAllDone_phase, hb], fun a => ?_⟩
  exact read_writeFour m s.regs.i (decGroupByte s.inp s.regs.i) a

/-- Settles O31: in phase Busy the operation is one engine step, and the iteration leaves OUT as it was. -/
theorem planarEncodeStepCollectsItsByte : Obligations.PlanarEncodeStepCollectsItsByte := by
  intro s m i hi hb hw ho hlt h3 hc
  have hstep := engineStep_of_ok ho hlt (planarEncIter_collect { regs := s.regs, out := m } hc hlt h3)
  rw [State.putEngine, ← ho] at hstep
  rw [exec_busy hb hw, iterationOf_planarEnc hi]
  exact hstep

/-- What a byte step of planar encode that is not its group's last leaves (41_planar_sprite_codec.md R136). -/
def collectByte (inp : Memory) (e : Engine) : Engine :=
  { e with regs := { e.regs with
      i := e.regs.i + 1, indexes := accumulate e.regs.indexes (Memory.byteAt inp e.regs.i) } }

theorem planarEncIter_eq_collectByte {inp : Memory} {n : Nat} (e : Engine) (hc : Memory.covers inp n = true)
    (hi : e.regs.i < n) (h3 : e.regs.i % 4 ≠ 3) : planarEncIter inp n e = .ok (collectByte inp e) :=
  planarEncIter_collect e hc hi h3

/-- Settles O32: three byte steps collect, whatever INDEXES held, and the fourth writes the group. -/
theorem planarEncodeGroupIsWrittenAtItsPlace : Obligations.PlanarEncodeGroupIsWrittenAtItsPlace := by
  intro e inp n hn hc h4 hlt
  have hnone : Collected inp e.regs.indexes e.regs.i 0 := fun j hj => absurd hj (Nat.not_lt_zero j)
  have hthree : Collected inp (collectByte inp (collectByte inp (collectByte inp e))).regs.indexes (e.regs.i + 3) 3 :=
    collected_accumulate (by decide) (collected_accumulate (by decide) (collected_accumulate (by decide) hnone))
  obtain ⟨mk, hlanes⟩ := planarEncIter_lanes _ hc hn h4 hlt rfl hthree
  refine ⟨_, _, _, _, planarEncIter_eq_collectByte _ hc hlt (by omega), planarEncIter_eq_collectByte _ hc ?_ ?_,
    planarEncIter_eq_collectByte _ hc ?_ ?_, hlanes, rfl, read_writeFour e.out _ _⟩ <;> simp only [collectByte] <;> omega

/-! ### The two composites -/

theorem granule_planar_dvd {c : Category} (hc : c ∈ [Category.sprite, Category.cdSprite]) (d : Direction) :
    granule c d ∣ 128 := by
  fin_cases hc <;> cases d <;> decide

/-- Whole blocks are accepted in either direction (42_dispatcher.md R175). -/
theorem lengthOk_of_blocks {c : Category} (hc : c ∈ [Category.sprite, Category.cdSprite]) (d : Direction) {n : Nat}
    (hpos : 0 < n) (hn : n % 128 = 0) : lengthOk c d n = true :=
  (lengthOk_iff ..).2 ⟨hpos, Nat.mod_eq_zero_of_dvd ((granule_planar_dvd hc d).trans (Nat.dvd_of_mod_eq_zero hn))⟩

/-- An offset in whole blocks stays in them under `xor` with a constant below the block's length. -/
theorem xor_lt_of_blocks {n a x : Nat} (hn : n % 128 = 0) (ha : a < n) (hx : x < 128) : a ^^^ x < n := by
  have hmod : a % 128 < 128 := Nat.mod_lt _ (by decide)
  have hspan : (128 * (a / 128) + a % 128) ^^^ x = 128 * (a / 128) + (a % 128 ^^^ x) := xor_in_span 7 _ hmod hx
  rw [← Nat.div_add_mod a 128, hspan]
  exact span_lt hn (by omega) (Nat.xor_lt_two_pow (n := 7) hmod hx)

theorem outByte_planarDec {c : Category} (hc : c ∈ [Category.sprite, Category.cdSprite]) :
    outByte c .decode = planarDecByte := by
  fin_cases hc <;> rfl

theorem outByte_planarEnc {c : Category} (hc : c ∈ [Category.sprite, Category.cdSprite]) :
    outByte c .encode = planarEncByte := by
  fin_cases hc <;> rfl

/-- Every offset is a place in a group. -/
theorem exists_group_offset (a : Nat) : ∃ g k, g % 4 = 0 ∧ k < 4 ∧ a = g + k :=
  ⟨a - a % 4, a % 4, by omega, by omega, by omega⟩

/-- Planar decode byte by byte, as the unit function on the group that holds the byte (42_dispatcher.md R183). -/
theorem planarDecByte_eq (f : Nat → Byte) {g k : Nat} (hg : g % 4 = 0) (hk : k < 4) :
    planarDecByte f (g + k) = decodeGroup (fun a => f (g + a)) k :=
  planarDecByte_group f hg hk

/-- Planar encode byte by byte, as the unit function on the group at the other half of the block (42_dispatcher.md R183). -/
theorem planarEncByte_eq (f : Nat → Byte) {g k : Nat} (hg : g % 4 = 0) (hk : k < 4) :
    planarEncByte f (g + k) = encodeGroup (fun a => f ((g ^^^ destXor) + a)) k := by
  have hplace : encPlace (g ^^^ destXor) k = g + k := by rw [encPlace_eq _ hk, xor_destXor_self]
  rw [← hplace, planarEncByte_group f (xor_destXor_mod_four hg) hk]
  rfl

/-- The unit functions see the four bytes of the group alone. -/
theorem decodeGroup_congr {f f' : Nat → Byte} (h : ∀ a < 4, f a = f' a) : decodeGroup f = decodeGroup f' := by
  funext k
  simp only [decodeGroup, h 0 (by decide), h 1 (by decide), h 2 (by decide), h 3 (by decide)]

theorem encodeGroup_congr {f f' : Nat → Byte} (h : ∀ a < 4, f a = f' a) : encodeGroup f = encodeGroup f' := by
  funext k
  simp only [encodeGroup, h 0 (by decide), h 1 (by decide), h 2 (by decide), h 3 (by decide)]

/-- Planar encode after planar decode: the pairs of a group and the halves of a block are exchanged
(41_planar_sprite_codec.md R143). -/
theorem planarEncByte_planarDecByte (f : Nat → Byte) (h : Nat) : planarEncByte (planarDecByte f) h = f (h ^^^ 0x42) := by
  obtain ⟨g, k, hg, hk, rfl⟩ := exists_group_offset h
  have hbase := xor_destXor_mod_four hg
  have hoff : (g + k) ^^^ 0x42 = (g ^^^ destXor) + (k ^^^ 2) := by
    rw [← xor_lane hg hk, ← xor_lane hbase (xor_two_lt hk), show (0x42 : Nat) = destXor ^^^ 2 by decide]
    ac_rfl
  rw [planarEncByte_eq _ hg hk, encodeGroup_congr fun a ha => planarDecByte_eq f hbase ha,
    encodeGroup_decodeGroup _ hk, hoff]

/-- Planar decode after planar encode: every nibble is rotated by two and the halves of a block are exchanged
(41_planar_sprite_codec.md R144). -/
theorem planarDecByte_planarEncByte (f : Nat → Byte) (j : Nat) :
    planarDecByte (planarEncByte f) j = rot2n (f (j ^^^ 0x40)) := by
  obtain ⟨g, k, hg, hk, rfl⟩ := exists_group_offset j
  have hoff : (g + k) ^^^ 0x40 = (g ^^^ destXor) + k := by
    rw [← xor_lane hg hk, ← xor_lane (xor_destXor_mod_four hg) hk, destXor]
    ac_rfl
  rw [planarDecByte_eq _ hg hk, decodeGroup_congr fun a ha => planarEncByte_eq f hg ha,
    decodeGroup_encodeGroup _ hk, hoff]

/-- Two operations one after the other on a length that both accept, byte by byte (42_dispatcher.md R178, R183). -/
theorem transcode_transcode {bs : List Byte} {c : Category} {d d' : Direction} (hl : lengthOk c d bs.length = true)
    (hl' : lengthOk c d' bs.length = true) :
    ∃ cs ds, transcode bs c d = .ok cs ∧ transcode cs c d' = .ok ds ∧ ds.length = bs.length ∧
      ∀ a < bs.length, byteAt ds a = outByte c d' (outByte c d (byteAt bs)) a := by
  refine ⟨_, _, transcode_ok hl, transcode_ok (by simpa using hl'), by simp, fun a ha => ?_⟩
  rw [List.length_map, List.length_range, byteAt_map _ _ ha]
  exact outByte_congr c d' hl' ha fun x hx => byteAt_map _ _ hx

/-- What a composite that begins with the direction does to the value of a byte (41_planar_sprite_codec.md R143, R144). -/
def compositeValue : Direction → Byte → Byte
  | .encode => rot2n
  | .decode => id

/-- What a composite that begins with the direction does to the offset of a byte (41_planar_sprite_codec.md R143, R144). -/
def compositeShift : Direction → Nat
  | .encode => 0x40
  | .decode => 0x42

theorem compositeShift_lt (d : Direction) : compositeShift d < 128 := by cases d <;> decide

@[simp] theorem compositeValue_compositeValue (d : Direction) (b : Byte) : compositeValue d (compositeValue d b) = b := by
  cases d
  · exact rot2n_rot2n b
  · rfl

/-- A planar operation and then the one of the other direction (41_planar_sprite_codec.md R143, R144). -/
theorem outByte_composite {c : Category} (hc : c ∈ [Category.sprite, Category.cdSprite]) {d d' : Direction} (hd : d ≠ d')
    (f : Nat → Byte) (a : Nat) : outByte c d' (outByte c d f) a = compositeValue d (f (a ^^^ compositeShift d)) := by
  cases d <;> cases d'
  · exact absurd rfl hd
  · rw [outByte_planarEnc hc, outByte_planarDec hc]; exact planarDecByte_planarEncByte f a
  · rw [outByte_planarEnc hc, outByte_planarDec hc]; exact planarEncByte_planarDecByte f a
  · exact absurd rfl hd

/-- The composites on a buffer of whole blocks (41_planar_sprite_codec.md R143, R144). -/
theorem transcode_composite {c : Category} (hc : c ∈ [Category.sprite, Category.cdSprite]) {d d' : Direction} (hd : d ≠ d')
    {bs : List Byte} (hpos : 0 < bs.length) (hn : bs.length % 128 = 0) :
    ∃ cs ds, transcode bs c d = .ok cs ∧ transcode cs c d' = .ok ds ∧ ds.length = bs.length ∧
      ∀ a < bs.length, byteAt ds a = compositeValue d (byteAt bs (a ^^^ compositeShift d)) := by
  simpa only [outByte_composite hc hd] using
    transcode_transcode (bs := bs) (lengthOk_of_blocks hc d hpos hn) (lengthOk_of_blocks hc d' hpos hn)

/-- Settles O54: the composite that begins with decode. -/
theorem planarEncodeAfterDecode : Obligations.PlanarEncodeAfterDecode := by
  intro bs c hc hpos hn
  obtain ⟨cs, ds, hcs, hds, -, hbytes⟩ := transcode_composite hc (d := .decode) (d' := .encode) (by decide) hpos hn
  exact ⟨cs, ds, hcs, hds, hbytes⟩

/-- `rot2n` on each nibble (41_planar_sprite_codec.md R144). -/
theorem rot2n_nibble (b : Byte) {k : Nat} (hk : k ∈ [0, 4]) :
    (rot2n b).extractLsb' k 4 = ((b.extractLsb' k 4) >>> 2) ||| ((b.extractLsb' k 4) <<< 2) := by
  refine BitVec.eq_of_getLsbD_eq fun r hr => ?_
  unfold rot2n
  fin_cases hk <;> interval_cases r <;> simp

/-- Settles O55: the composite that begins with encode; `rot2n` bit by bit, and its fixed nibbles one by one. -/
theorem planarDecodeAfterEncode : Obligations.PlanarDecodeAfterEncode := by
  intro bs c hc hpos hn
  obtain ⟨cs, ds, hcs, hds, -, hbytes⟩ := transcode_composite hc (d := .encode) (d' := .decode) (by decide) hpos hn
  exact ⟨cs, ds, hcs, hds, hbytes, fun _ => rfl, fun b _ hk => rot2n_nibble b hk, by decide⟩

/-- Buffers of the same length with the same bytes are the same buffer. -/
theorem eq_of_byteAt_eq {bs cs : List Byte} (hlen : cs.length = bs.length)
    (h : ∀ a < bs.length, byteAt cs a = byteAt bs a) : cs = bs := by
  rw [← map_byteAt_range cs, ← map_byteAt_range bs, hlen]
  exact List.map_congr_left fun a ha => h a (List.mem_range.1 ha)

/-- Each composite undoes itself (41_planar_sprite_codec.md R145 (a)). -/
theorem transcode_composite_twice {c : Category} (hc : c ∈ [Category.sprite, Category.cdSprite]) {d d' : Direction}
    (hd : d ≠ d') {bs : List Byte} (hpos : 0 < bs.length) (hn : bs.length % 128 = 0) :
    ∃ b1 b2 b3, transcode bs c d = .ok b1 ∧ transcode b1 c d' = .ok b2 ∧ transcode b2 c d = .ok b3 ∧
      transcode b3 c d' = .ok bs := by
  obtain ⟨b1, b2, h1, h2, hlen, hbytes⟩ := transcode_composite hc hd hpos hn
  obtain ⟨b3, b4, h3, h4, hlen', hbytes'⟩ := transcode_composite hc hd (bs := b2) (by omega) (by omega)
  have heq : b4 = bs := by
    refine eq_of_byteAt_eq (hlen'.trans hlen) fun a ha => ?_
    rw [hbytes' a (by omega), hbytes _ (xor_lt_of_blocks hn ha (compositeShift_lt d)), compositeValue_compositeValue,
      Nat.xor_xor_cancel_right]
  exact ⟨b1, b2, b3, h1, h2, h3, heq ▸ h4⟩

/-- Settles O56: each composite undoes itself, and on the ramp it changes the byte at offset 0. -/
theorem planarCompositesAreInvolutions : Obligations.PlanarCompositesAreInvolutions := by
  intro c hc d _ d' _ hd
  refine ⟨fun bs hpos hn => transcode_composite_twice hc hd hpos hn, ?ramp⟩
  case ramp =>
    obtain ⟨b1, b2, h1, h2, -, hbytes⟩ :=
      transcode_composite hc hd (bs := (List.range 128).map (BitVec.ofNat 8)) (by simp) (by simp)
    refine ⟨b1, b2, h1, h2, fun heq => ?_⟩
    have hzero := hbytes 0 (by simp)
    rw [heq, Nat.zero_xor, byteAt_map _ _ (compositeShift_lt d), byteAt_map _ _ (by decide)] at hzero
    cases d <;> exact absurd hzero (by decide)

/-! ### Pixels in the buffer -/

/-- Settles O59: the unit functions pixel by pixel, at the group that holds the byte. -/
theorem planarPixelsAreWhereTheyBelong : Obligations.PlanarPixelsAreWhereTheyBelong := by
  intro f c hc g q b hg hq hb
  constructor
  · rw [outByte_planarDec hc, planarDecByte_eq f hg (by omega)]
    exact decodeGroup_pixel (fun a => f (g + a)) hb
  · rw [outByte_planarEnc hc, ← destXor, planarEncByte_eq f (xor_destXor_mod_four hg) (by omega), xor_destXor_self]
    exact encodeGroup_pixel (fun a => f (g + a)) hq hb

end Sys2Proof.Machine

/-! PROOFS. The dispatcher (spec/42_dispatcher.md): the length check, what a Start leaves, which instruction a step runs, the frame of
OUT in one iteration, and the ways an operation can be carried out (in one step, iteration by iteration, by several workers), each
against the function `transcode`. -/

namespace Sys2Proof.Machine

/-! ### The length check, and the length of the result -/

/-- Settles O9: the granules are closed terms (42_dispatcher.md R175). -/
theorem lengthCheckAcceptsTheGranules : Obligations.LengthCheckAcceptsTheGranules := fun n =>
  ⟨lengthOk_iff .fix .decode n, lengthOk_iff .fix .encode n, lengthOk_iff .sprite .decode n,
    lengthOk_iff .cdSprite .decode n, lengthOk_iff .sprite .encode n, lengthOk_iff .cdSprite .encode n⟩

/-- Settles O52: a buffer `transcode` answers has one byte for each offset of the input. -/
theorem lengthIsPreserved : Obligations.LengthIsPreserved := by
  intro bs cs c d h
  obtain ⟨-, rfl⟩ := transcode_eq_ok h
  rw [List.length_map, List.length_range]

/-! ### The function `transcode` on the cells of IN -/

/-- On the first `n` bytes of IN, an accepted length, `transcode` answers the closed form of the cells. -/
theorem transcode_take {c : Category} {d : Direction} {n : Nat} (inp : Memory) (hl : lengthOk c d n = true) :
    transcode (Memory.take inp n) c d = .ok ((List.range n).map (outByte c d (Memory.byteAt inp))) := by
  rw [transcode_ok (by rwa [Memory.take_length]), Memory.take_length]
  exact congrArg Except.ok (List.map_congr_left fun j hj =>
    outByte_congr c d hl (List.mem_range.1 hj) fun _ ha => byteAt_take ha)

/-- The only error `transcode` answers is Length, and it answers it for a refused length (42_dispatcher.md R183). -/
theorem transcode_eq_error {bs : List Byte} {c : Category} {d : Direction} {e : Err} (h : transcode bs c d = .error e) :
    lengthOk c d bs.length = false ∧ e = .length := by
  unfold transcode at h
  split at h
  · cases h
  · next hl => cases h; exact ⟨Bool.eq_false_iff.2 hl, rfl⟩

/-! ### The operation in one step -/

/-- Settles O28: an accepted length completes with the closed form that `transcode` is, a refused one fails with its error. -/
theorem execIsTranscode : Obligations.ExecIsTranscode := by
  intro i s hb hw hc
  refine ⟨fun bs hbs => ?buffer, fun e he => ?error⟩
  case buffer =>
    have hl := (transcode_eq_ok hbs).1
    rw [Memory.take_length] at hl
    obtain ⟨t, ht, -⟩ := exec_completes ⟨hb, hl, hc⟩ hw
    rcases exec_unwatched_next hb hw ht with ⟨hl', -⟩ | ⟨-, hph, herr, hout⟩
    · rw [hl] at hl'; cases hl'
    · rw [transcode_take s.inp hl] at hbs
      cases hbs
      exact ⟨t, ht, hph, herr, hout⟩
  case error =>
    obtain ⟨hl, rfl⟩ := transcode_eq_error he
    rw [Memory.take_length] at hl
    obtain ⟨t, ht, hfail⟩ := exec_fails_of_length hb hl
    exact ⟨t, ht, hfail.phase, hfail.err, hfail.out⟩

/-! ### Start, and the instruction a step runs -/

/-- For a ready host that looks in, an operation is Start alone (42_dispatcher.md R170, log 5). -/
theorem exec_of_ready_watched {i : Instr} {s : State} (hr : s.Ready i) (hw : s.watch = true) :
    exec i s = .next s.beginStart.beginOperation := by
  simp [exec_eq_operate, operate, hr.not_busy, start, hr.length_ok, hr.supplied, hw]

/-- Settles O11: the state Start leaves, field by field. -/
theorem startLeavesAnEmptyOutputAndBusy : Obligations.StartLeavesAnEmptyOutputAndBusy := fun _ _ hr hw =>
  ⟨_, exec_of_ready_watched hr hw, rfl, rfl, rfl, ⟨[], rfl, Memory.read_nil⟩, rfl, rfl, rfl, rfl, rfl, rfl, rfl, rfl⟩

/-- The host's Start, where CMD selects an operation (42_dispatcher.md R170). -/
theorem startMove_of_fetch {s : State} {i : Instr} (h : fetch s.cmd = some i) : startMove s = exec i s := by
  simp [startMove, h]

/-- In phase Busy a `pass` is taken, and the engine has its turn (log 4). -/
theorem step_of_pass {s : State} {ms : List HostMove} (hb : s.phase = .busy) (hp : s.pending = .pass :: ms) :
    step s = busyTurn (s.setPending ms) := by
  simp [step, turn, hb, turnInBusy, hp]

/-- Settles O36: outside phase Busy the step is the host's Start, in it the engine's turn, and both fetch `i`. -/
theorem stepRunsTheDecodedInstruction : Obligations.StepRunsTheDecodedInstruction := by
  intro s w i hd
  have hf : ∀ {c : Option Byte}, c = some w → fetch c = some i := fun hc => hc ▸ fetch_of_decode hd
  refine ⟨fun ms hb hc hp => ?start, fun hb hc hp => ?noMove, fun ms hb hc hp => ?pass, fun m ms hb hc hp hm => ?waits⟩
  case start => exact (step_of_move hb hp).trans (startMove_of_fetch (s := s.setPending ms) (hf hc))
  case noMove => exact (step_of_waits hb (by simp [hp])).trans (busyTurn_of_fetch (hf hc))
  case pass => exact (step_of_pass hb hp).trans (busyTurn_of_fetch (s := s.setPending ms) (hf hc))
  case waits => exact (step_of_waits hb (by simp [hp, hm])).trans (busyTurn_of_fetch (hf hc))

/-! ### The frame of OUT in one iteration -/

/-- In phase Busy, the host looking in, an operation leaves a cell of OUT that its iteration from the present index leaves. -/
theorem exec_busy_read {i : Instr} {f : Iteration} (hf : iterationOf i = f) {s t : State} {m m' : Memory}
    (hb : s.phase = .busy) (hw : s.watch = true) (ho : s.out = some m) (ho' : t.out = some m') (h : exec i s = .next t)
    {a : Nat} (hstep : ∀ e', f s.inp s.latch.len { regs := s.regs, out := m } = .ok e' →
      Memory.read e'.out a = Memory.read m a) : Memory.read m' a = Memory.read m a := by
  rw [exec_busy hb hw, hf] at h
  rcases engineStep_next h with ⟨-, rfl⟩ | ⟨m₁, e, -, ho₁, he, rfl⟩
  · cases ho.symm.trans ho'; rfl
  · cases ho.symm.trans ho₁
    rw [State.completeIfAllDone_out] at ho'
    cases ho'
    exact hstep e he

/-- Settles O35: each iteration's own frame, from the state's working registers and OUT. -/
theorem busyStepWritesOnlyAtItsOffsets : Obligations.BusyStepWritesOnlyAtItsOffsets := by
  intro s t m m' hb hw ho ho'
  refine ⟨fun h a ha => ?fixDec, fun h a ha => ?fixEnc, fun i hi h a ha => ?planarDec, fun i hi h a ha => ?planarEnc⟩
  case fixDec => exact exec_busy_read rfl hb hw ho ho' h fun _ he => (fixDecIter_frame he).2 a ha
  case fixEnc => exact exec_busy_read rfl hb hw ho ho' h fun _ he => (fixEncIter_frame he).2 a ha
  case planarDec =>
    exact exec_busy_read (iterationOf_planarDec hi) hb hw ho ho' h fun _ he => (planarDecIter_frame he).cells a ha
  case planarEnc =>
    exact exec_busy_read (iterationOf_planarEnc hi) hb hw ho ho' h fun _ he => (planarEncIter_frame he).2.2 a ha

/-! ### The operation iteration by iteration -/

/-- In phase Busy a host that looks in, and has no other move, sees one iteration a step (log 4, log 5). -/
theorem step_watched {i : Instr} {s : State} (hb : s.phase = .busy) (hw : s.watch = true)
    (hf : fetch s.latch.cmd = some i) (hp : ∀ m ∈ s.pending.head?, m.waits = true) :
    step s = engineStep (iterationOf i) s := by
  rw [step_of_waits hb hp, busyTurn_of_fetch hf, exec_busy hb hw]

/-- A run of the engine begins with a step, and ends with it where that leaves phase Busy. -/
theorem engineRun_succ {f : Iteration} {k : Nat} {s t : State} (h : engineStep f s = .next t) :
    engineRun f (k + 1) s = if t.phase = .busy then engineRun f k t else .next t := by
  rw [engineRun, h]

/-- With `k` iterations left, `k` steps of the machine that the host watches are the engine's run (42_dispatcher.md R182, R185). -/
theorem run_watched {i : Instr} {k n : Nat} {s : State} {m : Memory} (h : Progress s i m) (hb : s.phase = .busy)
    (hw : s.watch = true) (hf : fetch s.latch.cmd = some i) (hp : ∀ m ∈ s.pending.head?, m.waits = true)
    (hk : s.regs.i + k * stride i.category i.direction = s.latch.len) (hn : k ≤ n) :
    Host.Core.run core k s = engineRun (iterationOf i) n s := by
  induction k generalizing n s m with
  | zero => have := h.index_below; omega
  | succ k ih =>
    obtain ⟨n, rfl⟩ : ∃ n', n = n' + 1 := ⟨n - 1, by omega⟩
    rw [Nat.succ_mul] at hk
    obtain ⟨t, m', he, -, ht, hi, -, -, hcase⟩ := progress_next h hb
    have hkeeps := engineStep_keeps he
    rw [run_succ ((step_watched hb hw hf hp).trans he), engineRun_succ he]
    rcases hcase with ⟨hph, -, -, hprog⟩ | ⟨hph, -, hend, -⟩
    · rw [if_pos hph]
      exact ih hprog hph (hkeeps.watch.trans hw) (by rwa [hkeeps.latch]) (by rwa [hkeeps.pending])
        (by rw [hkeeps.latch, hi]; omega) (Nat.le_of_succ_le_succ hn)
    · have hzero : k * stride i.category i.direction = 0 := by omega
      have hpos := stride_pos i.category i.direction
      obtain rfl : k = 0 := (Nat.mul_eq_zero.1 hzero).resolve_right hpos.ne'
      exact (if_neg (by simp [hph])).symm

/-- The iterations an operation under way has left are the strides between I and N (10_state.md R30). -/
theorem Progress.iterations_left {s : State} {i : Instr} {m : Memory} (h : Progress s i m) :
    s.regs.i + (s.latch.len - s.regs.i) / stride i.category i.direction * stride i.category i.direction = s.latch.len := by
  have hdvd : stride i.category i.direction ∣ s.latch.len - s.regs.i :=
    Nat.dvd_sub (Nat.dvd_of_mod_eq_zero (len_mod_stride h.length_ok)) (Nat.dvd_of_mod_eq_zero h.index_aligned)
  rw [Nat.div_mul_cancel hdvd]
  exact Nat.add_sub_of_le h.index_below.le

/-- Whether the host looks in or not, some number of steps, no more than bytes remain, is the engine's run. -/
theorem run_eq_engineRun {i : Instr} {s : State} {m : Memory} (h : Progress s i m) (hb : s.phase = .busy)
    (hf : fetch s.latch.cmd = some i) (hp : ∀ m ∈ s.pending.head?, m.waits = true) :
    ∃ k ≤ s.latch.len - s.regs.i, Host.Core.run core k s = engineRun (iterationOf i) s.latch.len s := by
  have hbelow := h.index_below
  cases hw : s.watch
  case true =>
    have hk := Nat.div_le_self (s.latch.len - s.regs.i) (stride i.category i.direction)
    exact ⟨_, hk, run_watched h hb hw hf hp h.iterations_left (hk.trans (Nat.sub_le ..))⟩
  case false =>
    obtain ⟨t, -, hrun, -⟩ := progress_run s.latch.len s m h hb (Nat.sub_le ..)
    have hstep : step s = .next t := by
      rw [step_of_waits hb hp, busyTurn_of_fetch hf, exec_busy_unwatched hb hw, hrun]
    exact ⟨1, by omega, (run_succ hstep).trans hrun.symm⟩

/-- Settles O47: the steps are the engine's run of the operation under way, which ends Done with the closed form in OUT. -/
theorem busyReachesDone : Obligations.BusyReachesDone := by
  intro s hinv hb hp
  obtain ⟨i, m, hlatched, -, -, hprog⟩ := hinv.running hb
  obtain ⟨k, hk, hrun⟩ := run_eq_engineRun hprog hb hlatched hp
  obtain ⟨t, m', hend, ht, hwf, hcells⟩ := progress_run s.latch.len s m hprog hb (Nat.sub_le ..)
  have hout : t.out = some m' := by rw [ht]
  rw [Memory.eq_zip_of_read (hwf (hinv.out_wf m hprog.out_eq)) hcells] at hout
  exact ⟨k, hk, t, i, _, hrun.trans hend, by rw [ht], by rw [ht], hlatched,
    transcode_take s.inp hprog.length_ok, hout⟩

theorem State.completeIfAllDone_setWatch (s : State) (on : Bool) :
    (s.setWatch on).completeIfAllDone = s.completeIfAllDone.setWatch on :=
  (apply_ite (State.setWatch · on) (s.latch.len ≤ s.regs.i) (s.setStatus .done .none) s).symm

/-- At I = N a step of the engine is completion (42_dispatcher.md R177). -/
theorem engineStep_of_le {f : Iteration} {s : State} (h : s.latch.len ≤ s.regs.i) :
    engineStep f s = .next (s.setStatus .done .none) := by
  rw [engineStep, if_pos h, State.completeIfAllDone, if_pos h]

/-- A step of the engine does not depend on whether the host looks in (log 5). -/
theorem engineStep_setWatch {f : Iteration} {s t : State} (on : Bool) (h : engineStep f s = .next t) :
    engineStep f (s.setWatch on) = .next (t.setWatch on) := by
  rcases engineStep_next h with ⟨hle, rfl⟩ | ⟨m, e, hlt, ho, he, rfl⟩
  · exact engineStep_of_le (s := s.setWatch on) hle
  · rw [← State.completeIfAllDone_setWatch]
    exact engineStep_of_ok (s := s.setWatch on) ho hlt he

/-- Nor does the engine's run (log 5). -/
theorem engineRun_setWatch {f : Iteration} {k : Nat} {s t : State} (on : Bool) (h : engineRun f k s = .next t) :
    engineRun f k (s.setWatch on) = .next (t.setWatch on) := by
  induction k generalizing s with
  | zero => cases h; rfl
  | succ k ih =>
    cases hu : engineStep f s with
    | next u =>
      rw [engineRun_succ hu] at h
      rw [engineRun_succ (engineStep_setWatch on hu), State.setWatch_phase]
      split at h
      · next hb => rw [if_pos hb]; exact ih h
      · next hb => cases h; exact if_neg hb
    | fault r => simp [engineRun, hu] at h
    | refused r => simp [engineRun, hu] at h

/-- Settles O48: both ways are the engine's run from the state Start leaves, which the host's looking in does not change. -/
theorem watchedRunEndsAsTheWholeStep : Obligations.WatchedRunEndsAsTheWholeStep := by
  intro i s w hr hw hc hd hp
  have hprog : Progress (s.setWatch true).beginStart.beginOperation i [] :=
    progress_start (s := s.setWatch true) hr.length_ok hr.supplied
  obtain ⟨t, ht, -⟩ := exec_completes hr hw
  refine ⟨t, (s.setWatch true).beginStart.beginOperation, ht,
    exec_of_ready_watched ⟨hr.not_busy, hr.length_ok, hr.supplied⟩ rfl, ?run⟩
  case run =>
    have hf : fetch s.cmd = some i := by rw [hc]; exact fetch_of_decode hd
    rw [exec_of_ready hr hw] at ht
    exact (run_watched hprog rfl rfl hf (by simp [hp]) hprog.iterations_left (Nat.div_le_self ..)).trans
      (engineRun_setWatch true ht)

/-! ### The operation by several workers -/

/-- Settles O51: every assignment puts the pool under way and every schedule keeps it so; finished, it has written exactly the
cells below N, each with its byte. -/
theorem anyWorkersGiveTheSameOutput : Obligations.AnyWorkersGiveTheSameOutput := by
  intro i inp n asg schedule hl hc hperm
  obtain ⟨p, hrun, hok, hinp, hn, -⟩ := poolRun_ok schedule (poolStart_ok (inp := inp) hl hperm) hl hc
  refine ⟨p, hrun, fun hfin bs hbs => ?output⟩
  case output =>
    obtain rfl : p.inp = inp := hinp
    obtain rfl : p.n = n := hn
    rw [transcode_take p.inp hl] at hbs
    cases hbs
    exact Memory.eq_zip_of_read hok.wf (hok.read_of_finished hfin)

end Sys2Proof.Machine

/-! PROOFS. The exceptions (spec/60_exceptions.md): the two errors Start raises, that nothing else goes wrong outside phase Busy or
in it, the run's record of failed operations, and the operation done by several workers. -/

namespace Sys2Proof.Machine

/-! ### The two errors of Start -/

/-- STATUS after an error has the error's code beside the code of phase Failed (10_state.md R26, 60_exceptions.md R206, R209). -/
theorem FailedWith.status {s t : State} {e : Err} (h : FailedWith s t e) :
    t.status = (0 : BitVec 3) ++ (e.code ++ Phase.failed.code) := by
  rw [State.status, h.phase, h.err]

/-- A CMD never written, or with a word that no instruction encodes to, selects no operation (60_exceptions.md R201). -/
theorem fetch_eq_none {c : Option Byte} (h : c = none ∨ ∃ w, c = some w ∧ ∀ i, encode i ≠ w) : fetch c = none := by
  rcases h with rfl | ⟨w, rfl, hw⟩
  · rfl
  · obtain ⟨r, hr⟩ := decode_eq_error_of_ne_encode fun i => (hw i).symm
    simp [fetch, hr]

/-- The host's Start, where CMD selects no operation (42_dispatcher.md R170 step 2). -/
theorem startMove_of_fetch_none {s : State} (h : fetch s.cmd = none) : startMove s = .next s.startUsage := by
  simp [startMove, h]

theorem State.startUsage_failedWith (s : State) : FailedWith s s.startUsage .usage := ⟨rfl, rfl, rfl, rfl, rfl, rfl⟩

/-- What a failed Start keeps of the state does not depend on the host's moves still to come. -/
theorem FailedWith.of_setPending {s t : State} {ms : List HostMove} {e : Err} (h : FailedWith (s.setPending ms) t e) :
    FailedWith s t e :=
  ⟨h.phase, h.err, h.out, h.inp, h.len, h.cmd⟩

/-- Settles O7: no operation is fetched, so the step is the refused Start. -/
theorem reservedCommandFailsWithUsage : Obligations.ReservedCommandFailsWithUsage := by
  intro s ms hb hp hcmd
  have hfail := (s.setPending ms).startUsage_failedWith.of_setPending
  have hstart : startMove (s.setPending ms) = .next (s.setPending ms).startUsage :=
    startMove_of_fetch_none (fetch_eq_none hcmd)
  exact ⟨_, (step_of_move hb hp).trans hstart, hfail, hfail.status.trans rfl⟩

/-- Operations with the granule `g` refuse what is no positive multiple of it, with STATUS 0x13 (60_exceptions.md R200). -/
theorem exec_fails_of_granule {s : State} {is : List Instr} {g : Nat} (hb : s.phase ≠ .busy)
    (hg : ∀ i ∈ is, granule i.category i.direction = g) :
    ∀ i ∈ is, s.len = 0 ∨ s.len % g ≠ 0 → ∃ t, exec i s = .next t ∧ FailedWith s t .length ∧ t.status = 0x13#8 := by
  intro i hi hl
  rw [← hg i hi] at hl
  obtain ⟨t, ht, hfail⟩ := exec_fails_of_length hb (lengthOk_eq_false_iff.2 hl)
  exact ⟨t, ht, hfail, hfail.status.trans rfl⟩

/-- Settles O8, granule by granule. -/
theorem badLengthFailsWithLengthError : Obligations.BadLengthFailsWithLengthError := fun _ hb =>
  ⟨exec_fails_of_granule hb (by decide), exec_fails_of_granule hb (by decide), exec_fails_of_granule hb (by decide)⟩

/-! ### No fault -/

/-- After its checks, a Start whose input is not fully supplied has no step (70_reset_and_hazards.md R232, log 8). -/
theorem exec_refuses_missing_input {i : Instr} {s : State} (hb : s.phase ≠ .busy)
    (hl : lengthOk i.category i.direction s.len = true) (hc : Memory.covers s.inp s.len = false) :
    exec i s = .refused .inputNotSupplied := by
  simp [exec_eq_operate, operate, hb, start, hl, hc]

/-- For a ready host an operation has a next state, whether the host looks in or not. -/
theorem exec_next_of_ready {i : Instr} {s : State} (hr : s.Ready i) : ∃ t, exec i s = .next t := by
  cases hw : s.watch
  case true => exact ⟨_, exec_of_ready_watched hr hw⟩
  case false => exact (exec_completes hr hw).imp fun _ h => h.1

/-- Settles O12: an operation fails its length check, is refused for missing input, or is ready and has a next state. -/
theorem operationsNeverFault : Obligations.OperationsNeverFault := by
  intro i s r hb hfault
  cases hl : lengthOk i.category i.direction s.len
  case false =>
    obtain ⟨t, ht, -⟩ := exec_fails_of_length hb hl
    cases ht.symm.trans hfault
  case true =>
    cases hc : Memory.covers s.inp s.len
    case false => cases (exec_refuses_missing_input hb hl hc).symm.trans hfault
    case true =>
      obtain ⟨t, ht⟩ := exec_next_of_ready ⟨hb, hl, hc⟩
      cases ht.symm.trans hfault

/-! ### The record of failed operations -/

/-- An operation started outside phase Busy adds its error to the record exactly when it ends in Failed (60_exceptions.md R210). -/
theorem exec_failures {i : Instr} {s t : State} (hb : s.phase ≠ .busy) (h : exec i s = .next t) :
    t.failures = if t.phase = .failed then t.err :: s.failures else s.failures := by
  rcases exec_next_cases h with ⟨hb', -⟩ | ⟨-, rfl⟩ | ⟨-, hk⟩
  · exact absurd hb' hb
  · rfl
  · have hphase : t.phase ≠ .failed := by rcases hk.phase with hp | hp <;> simp [hp]
    rw [if_neg hphase]
    exact hk.failures

/-- So does the host's Start, which may also end in the error Usage. -/
theorem startMove_failures {s t : State} (hb : s.phase ≠ .busy) (h : startMove s = .next t) :
    t.failures = if t.phase = .failed then t.err :: s.failures else s.failures := by
  cases hf : fetch s.cmd with
  | some i => exact exec_failures hb ((startMove_of_fetch hf).symm.trans h)
  | none => cases (startMove_of_fetch_none hf).symm.trans h; rfl

/-- A host's move outside phase Busy keeps the record, or ends in Failed and adds the error. -/
theorem HostEffect.failures {s t : State} {m : HostMove} (he : HostEffect s m t) (hb : s.phase ≠ .busy) :
    t.failures = s.failures ∨ (t.phase = .failed ∧ t.failures = t.err :: s.failures) := by
  cases he with
  | operation i _ _ hexec =>
    have hrec := exec_failures hb hexec
    split at hrec
    · next hp => exact .inr ⟨hp, hrec⟩
    · exact .inl hrec
  | usage _ => exact .inr ⟨rfl, rfl⟩
  | _ => exact .inl rfl

/-- From phase Busy a step records no failure (60_exceptions.md R202). -/
theorem step_busy_failures {s t : State} (hb : s.phase = .busy) (h : step s = .next t) : t.failures = s.failures := by
  rcases step_busy_cases s hb with ⟨ms, -, hs⟩ | ⟨ms, -, hs⟩ | ⟨on, ms, -, hs⟩ | ⟨ms, -, hs⟩ | hs <;> rw [hs] at h
  · cases h; rfl
  · cases h; rfl
  · cases h; rfl
  · exact (busyTurn_keeps (s := s.setPending ms) hb h).failures
  · exact (busyTurn_keeps hb h).failures

/-- The record stays, or grows by the error of a step that ends in Failed (60_exceptions.md R210). -/
theorem step_failures {s t : State} (h : step s = .next t) :
    t.failures = s.failures ∨ (t.phase = .failed ∧ t.failures = t.err :: s.failures) := by
  by_cases hb : s.phase = .busy
  · exact .inl (step_busy_failures hb h)
  · rcases step_outside_cases hb h with ⟨-, rfl⟩ | ⟨m, ms, -, he⟩
    · exact .inl rfl
    · exact he.failures hb

/-- Settles O43: the record stays or grows, and the step that takes a Start is the host's Start. -/
theorem failureRecordIsKept : Obligations.FailureRecordIsKept := by
  intro s t h
  refine ⟨step_failures h, fun hb hp hfail => ?start, fun hnone => ?noFailure⟩
  case start =>
    obtain ⟨ms, hms⟩ := List.head?_eq_some_iff.1 hp
    have hstart : startMove (s.setPending ms) = .next t := (step_of_move hb hms).symm.trans h
    exact (startMove_failures (s := s.setPending ms) hb hstart).trans (if_pos hfail)
  case noFailure =>
    rcases step_failures h with hkept | ⟨-, hgrown⟩
    · exact hkept.symm.trans hnone
    · cases hgrown.symm.trans hnone

/-! ### Phase Busy -/

/-- In phase Busy of the invariant every step has a next state (60_exceptions.md R202). -/
theorem State.Inv.step_busy_next {s : State} (h : s.Inv) (hb : s.phase = .busy) : ∃ t, step s = .next t := by
  rcases step_busy_cases s hb with ⟨ms, -, hs⟩ | ⟨ms, -, hs⟩ | ⟨on, ms, -, hs⟩ | ⟨ms, -, hs⟩ | hs
  · exact ⟨_, hs⟩
  · exact ⟨_, hs⟩
  · exact ⟨_, hs⟩
  · obtain ⟨-, -, t, -, -, ht, -⟩ := (h.setPending ms).busyTurn_does hb
    exact ⟨t, hs.trans ht⟩
  · obtain ⟨-, -, t, -, -, ht, -⟩ := h.busyTurn_does hb
    exact ⟨t, hs.trans ht⟩

/-- Settles O46: there is a next state; its record and its phase are as from any Busy state. -/
theorem busyNeverFails : Obligations.BusyNeverFails := by
  intro s hinv hb
  obtain ⟨t, ht⟩ := hinv.step_busy_next hb
  refine ⟨t, ht, step_busy_failures hb ht, ?_⟩
  rcases step_busy_phase hb ht with hp | hp | ⟨hp, hreset⟩
  · exact .inl (hp.trans hb)
  · exact .inr (.inl hp)
  · exact .inr (.inr ⟨hp, List.head?_eq_some_iff.1 hreset⟩)

/-! ### Start with several workers -/

/-- A schedule that gives every worker a turn for each byte finishes the pool (70_reset_and_hazards.md R246). -/
theorem Pool.finished_of_fair {i : Instr} {inp : Memory} {n : Nat} {asg : List (Regs × List Nat)} {schedule : List Nat}
    {p : Pool} (hperm : (asg.flatMap Prod.snd).Perm (workItems i.category n))
    (hrem : ∀ k : Nat, p.remaining[k]? =
      ((poolStart i inp n asg).remaining[k]?).map (List.drop (schedule.count k)))
    (hfair : ∀ k < asg.length, n ≤ schedule.count k) : p.finished = true := by
  refine (Pool.finished_iff p).2 fun k vs hvs => ?_
  rw [hrem] at hvs
  obtain ⟨ws, hws, rfl⟩ := Option.map_eq_some_iff.1 hvs
  have hk : k < asg.length := by
    simpa [Pool.remaining, poolStart] using (List.getElem?_eq_some_iff.1 hws).1
  exact List.drop_eq_nil_of_le ((poolStart_visits_le hperm hws).trans (hfair k hk))

/-- With several workers a refused length ends as with one (42_dispatcher.md R170, 60_exceptions.md R200). -/
theorem execWithWorkers_fails_of_length {i : Instr} {s : State} (asg : List (Regs × List Nat)) (schedule : List Nat)
    (hb : s.phase ≠ .busy) (hl : lengthOk i.category i.direction s.len = false) :
    ∃ t, execWithWorkers i asg schedule s = .next t ∧ FailedWith s t .length := by
  refine ⟨s.beginStart.raiseError .length, ?_, rfl, rfl, rfl, rfl, rfl, rfl⟩
  simp [execWithWorkers, hb, start, hl]

/-- On a ready state the workers' run goes into the state that Start leaves (60_exceptions.md R218). -/
theorem execWithWorkers_of_ready {i : Instr} {s : State} {asg : List (Regs × List Nat)} {schedule : List Nat} {p : Pool}
    (hr : s.Ready i) (hrun : poolRun (iterationOf i) schedule (poolStart i s.inp s.len asg) = .ok p) :
    execWithWorkers i asg schedule s = .next (s.beginStart.beginOperation.putPool p) := by
  simp [execWithWorkers, hr.not_busy, start, hr.length_ok, hr.supplied, runWorkers, hrun]

/-- A finished pool, in the state that Start leaves, completes the operation (42_dispatcher.md R177). -/
theorem putPool_completes {i : Instr} {s : State} {p : Pool} (hok : PoolOk i p) (hinp : p.inp = s.inp) (hn : p.n = s.len)
    (hfin : p.finished = true) :
    CompletedWith s (s.beginStart.beginOperation.putPool p) (outByte i.category i.direction (Memory.byteAt s.inp)) where
  phase := by rw [State.putPool_phase, if_pos hfin]
  err := by rw [State.putPool_err, if_pos hfin]
  out := ⟨p.out, State.putPool_out .., fun a => by rw [hok.read_of_finished hfin, hinp, hn]⟩
  inp := by simp
  len := by simp
  cmd := by simp

/-- An operation that has completed with a canonical OUT looks to the host as with the one worker of `exec`: two canonical buffers with
the same cells are the same (42_dispatcher.md R181). -/
theorem CompletedWith.eq_exec {i : Instr} {s t : State} {m : Memory} (hr : s.Ready i)
    (hdone : CompletedWith s t (outByte i.category i.direction (Memory.byteAt s.inp))) (hm : t.out = some m)
    (hwf : Memory.wf m = true) :
    ∃ u, exec i (s.setWatch false) = .next u ∧ t.out = u.out ∧ t.phase = u.phase ∧ t.err = u.err := by
  have hr' : (s.setWatch false).Ready i := ⟨hr.not_busy, hr.length_ok, hr.supplied⟩
  obtain ⟨u, hu, -⟩ := exec_completes hr' rfl
  rcases exec_unwatched_next hr'.not_busy rfl hu with ⟨hl, -⟩ | ⟨-, hph, herr, hout⟩
  · cases hl.symm.trans hr'.length_ok
  · obtain ⟨m', hm', hcells⟩ := hdone.out
    cases hm.symm.trans hm'
    refine ⟨u, hu, ?_, hdone.phase.trans hph.symm, hdone.err.trans herr.symm⟩
    rw [hm, Memory.eq_zip_of_read hwf hcells, hout]
    rfl

/-- Settles O60: Start and its checks are those of one worker; every schedule keeps the pool under way, and finished it has written
exactly the cells below N, each with its byte. -/
theorem workersCompleteTheOperation : Obligations.WorkersCompleteTheOperation := by
  intro i s asg schedule hb
  refine ⟨fun hf => ?usage, fun hf => ?selected, execWithWorkers_fails_of_length (asg i) schedule hb,
    fun hr hperm => ?ready⟩
  case usage => exact ⟨s.startUsage, by simp [startMoveWithWorkers, hf], s.startUsage_failedWith⟩
  case selected => simp [startMoveWithWorkers, hf]
  case ready =>
    obtain ⟨p, hrun, hok, hinp, hn, hrem⟩ :=
      poolRun_ok schedule (poolStart_ok (inp := s.inp) hr.length_ok hperm) hr.length_ok hr.supplied
    refine ⟨p, _, hrun, execWithWorkers_of_ready hr hrun, State.putPool_out .., by simp, by simp, fun hunfin => ?unfinished,
      fun hfin => ?finished, Pool.finished_of_fair hperm hrem⟩
    case unfinished => simp [State.putPool_phase, State.putPool_err, hunfin]
    case finished =>
      have hdone := putPool_completes hok hinp hn hfin
      exact ⟨hdone, hdone.eq_exec hr (State.putPool_out ..) hok.wf⟩

end Sys2Proof.Machine

/-! PROOFS. Reset and hazards (spec/70_reset_and_hazards.md): the moves of the host and what each is answered with, the reset from any
phase, what phase Busy keeps, and the Start whose input is not supplied. -/

namespace Sys2Proof.Machine

/-! ### The host's moves outside phase Busy -/

/-- Settles O37: outside phase Busy the step is the host's write, and a write to IN sets consecutive cells. -/
theorem hostWritesTakeEffect : Obligations.HostWritesTakeEffect := fun s _ hb =>
  ⟨fun _ hp => step_of_move hb hp, fun _ hp => step_of_move hb hp,
    fun a bs hp => ⟨Memory.writeBytes s.inp a bs, step_of_move hb hp, Memory.read_writeBytes s.inp a bs⟩⟩

/-- In phase Done a read of a cell of OUT that holds a byte is answered with the byte (70_reset_and_hazards.md R236). -/
theorem hostMove_readOut {s : State} {m : Memory} {a : Nat} {b : Byte} (hd : s.phase = .done) (ho : s.out = some m)
    (hr : Memory.read m a = some b) : hostMove (.readOut a) s = .next (s.see (.out a b)) := by
  simp [hostMove, readOut, hd, ho, hr]

/-- A read of OUT has no step outside phase Done (70_reset_and_hazards.md R239, 60_exceptions.md R209). -/
theorem hostMove_readOut_of_not_done {s : State} (a : Nat) (hd : s.phase ≠ .done) :
    hostMove (.readOut a) s = .refused .noOutputToRead := by
  simp only [hostMove, readOut]
  split
  · next hdone _ => exact absurd hdone hd
  · rfl

/-- Nor has a read of a cell of OUT that holds no byte, in any phase. -/
theorem hostMove_readOut_of_no_byte {s : State} {m : Memory} {a : Nat} (ho : s.out = some m)
    (hr : Memory.read m a = none) : hostMove (.readOut a) s = .refused .noOutputToRead := by
  by_cases hd : s.phase = .done
  · simp [hostMove, readOut, hd, ho, hr]
  · exact hostMove_readOut_of_not_done a hd

/-- The copy of OUT to IN has no step outside phase Done either (30_encoding.md R91). -/
theorem hostMove_copyOutToIn_of_not_done {s : State} (hd : s.phase ≠ .done) :
    hostMove .copyOutToIn s = .refused .noOutputToRead := by
  simp only [hostMove, copyOut]
  split
  · next hdone _ => exact absurd hdone hd
  · rfl

/-- Settles O38: in phase Done the cells of OUT that hold a byte are those below the latched N. -/
theorem outputIsReadOnlyInDone : Obligations.OutputIsReadOnlyInDone := by
  intro s ms hinv hb
  refine ⟨fun a hp => ⟨fun hd ha => ?read, fun hno => ?refuse⟩,
    fun hp hd => (step_of_move hb hp).trans (hostMove_copyOutToIn_of_not_done hd)⟩
  case read =>
    obtain ⟨m, ho, hcells⟩ := hinv.complete hd
    obtain ⟨b, hr⟩ := Option.isSome_iff_exists.1 ((hcells a).trans (decide_eq_true ha))
    exact ⟨m, b, ho, hr, (step_of_move hb hp).trans (hostMove_readOut hd ho hr)⟩
  case refuse =>
    rw [step_of_move hb hp]
    by_cases hd : s.phase = .done
    · obtain ⟨m, ho, hcells⟩ := hinv.complete hd
      have ha : s.latch.len ≤ a := hno.resolve_left (not_not_intro hd)
      have hr : Memory.read m a = none := Option.not_isSome_iff_eq_none.1 (by rw [hcells]; simpa using ha)
      exact hostMove_readOut_of_no_byte ho hr
    · exact hostMove_readOut_of_not_done a hd

/-- In phase Failed a read of LEN is answered (70_reset_and_hazards.md R236). -/
theorem hostMove_readLen {s : State} (hf : s.phase = .failed) : hostMove .readLen s = .next (s.see (.len s.len)) :=
  if_pos hf

/-- In no other phase has it a step (log 9). -/
theorem hostMove_readLen_of_not_failed {s : State} (hf : s.phase ≠ .failed) :
    hostMove .readLen s = .refused .lenNotReadable :=
  if_neg hf

/-! ### The host's moves in every phase -/

/-- A read of STATUS is answered in every phase, Busy too (70_reset_and_hazards.md R236). -/
theorem step_of_readStatus {s : State} {ms : List HostMove} (hp : s.pending = .readStatus :: ms) :
    step s = .next ((s.setPending ms).see (.status s.status)) := by
  by_cases hb : s.phase = .busy
  · simp [step, turn, hb, turnInBusy, hp]
  · exact step_of_move hb hp

/-- A reset is taken at once in every phase (70_reset_and_hazards.md R230, R231, log 18). -/
theorem step_of_reset {s : State} {ms : List HostMove} (hp : s.pending = .reset :: ms) :
    step s = .next (s.setPending ms).hostReset := by
  by_cases hb : s.phase = .busy
  · simp [step, turn, hb, turnInBusy, hp]
  · exact step_of_move hb hp

/-- Settles O39: STATUS is read in every phase; LEN is read by a move outside phase Busy, and only in phase Failed. -/
theorem hostReadsGiveStatusAndLength : Obligations.HostReadsGiveStatusAndLength := by
  refine fun s ms => ⟨step_of_readStatus, fun hf hp => ?failed, fun hid hp => ?elsewhere⟩
  case failed => exact (step_of_move (by simp [hf]) hp).trans (hostMove_readLen (s := s.setPending ms) hf)
  case elsewhere =>
    have hne : s.phase ≠ .busy ∧ s.phase ≠ .failed := by rcases hid with h | h <;> simp [h]
    exact (step_of_move hne.1 hp).trans (hostMove_readLen_of_not_failed (s := s.setPending ms) hne.2)

/-- Settles O6: the reset is taken, and it leaves what the state after reset has (10_state.md R38). -/
theorem hostResetWorksFromAnyPhase : Obligations.HostResetWorksFromAnyPhase := fun _ _ hp =>
  ⟨_, step_of_reset hp, resetLeavesTheSpecifiedState⟩

/-! ### Phase Busy -/

/-- Settles O41: the engine keeps all of it, and the moves of the host that are taken write none of it, but for the reset. -/
theorem busyKeepsInputAndCommand : Obligations.BusyKeepsInputAndCommand := by
  intro s t hb h
  rcases step_busy_cases s hb with ⟨ms, hp, hs⟩ | ⟨ms, hp, hs⟩ | ⟨on, ms, hp, hs⟩ | ⟨ms, hp, hs⟩ | hs <;> rw [hs] at h
  · cases h; exact .inl ⟨rfl, rfl, rfl, rfl, .inr ⟨_, hp, .inl rfl⟩⟩
  · cases h; exact .inr hp
  · cases h; exact .inl ⟨rfl, rfl, rfl, rfl, .inr ⟨_, hp, .inr (.inr ⟨on, rfl⟩)⟩⟩
  · have hk := busyTurn_keeps (s := s.setPending ms) hb h
    obtain rfl : t.pending = ms := hk.pending
    exact .inl ⟨hk.inp, hk.len, hk.cmd, hk.latch, .inr ⟨_, hp, .inr (.inl rfl)⟩⟩
  · have hk := busyTurn_keeps hb h
    exact .inl ⟨hk.inp, hk.len, hk.cmd, hk.latch, .inl hk.pending⟩

/-! ### Missing input -/

/-- Settles O10: a cell without a value below LEN is one that IN does not cover. -/
theorem missingInputHasNoStep : Obligations.MissingInputHasNoStep := by
  rintro i s hb hl ⟨a, ha, hr⟩
  have hc : Memory.covers s.inp s.len = false := Bool.eq_false_iff.2 fun hc => by
    cases hr.symm.trans (Memory.read_of_covers hc ha)
  exact exec_refuses_missing_input hb hl hc

end Sys2Proof.Machine
